-- ==== Sys2Proof/Word.lean ====
section
/-! DEFINITION. The word types of C8CORE (00_scope.md rules R6, R11, R12) and the two ways a word is put together. -/

namespace Sys2Proof

/-- A memory byte, general register, timer or framebuffer byte (R6). -/
abbrev Byte := BitVec 8

/-- The program counter, the address register, a stacked return address, an instruction word (R6, R90). -/
abbrev Word := BitVec 16

/-- A register number, a sprite height or a scroll count: one nibble of the instruction word (R91, R92). -/
abbrev Nibble := BitVec 4

/-- The 12-bit address operand `nnn` (R92). -/
abbrev Addr12 := BitVec 12

/-- The word with nibbles op, x, y, n from the top down (R91). -/
def wordOfNibbles (op x y n : Nibble) : Word := op ++ x ++ y ++ n

/-- The word whose high byte is `hi` and whose low byte is `lo`: big-endian fetch (R14, R65). -/
def wordOfBytes (hi lo : Byte) : Word := hi ++ lo

/-- Bits 15:8 of a word, the byte at the lower address (R65). -/
def highByte (w : Word) : Byte := w.extractLsb' 8 8

/-- Bits 7:0 of a word, the byte at the higher address (R65). -/
def lowByte (w : Word) : Byte := w.extractLsb' 0 8

end Sys2Proof
end

