-- ==== Sys2Proof/Syntax.lean ====
section
/-! DEFINITION. The instructions of C8CORE: one constructor per row of spec/opcode_table.json, in the table's order
(classifier priority order, 30_encoding.md rules R94, R98, R100, R101, R104), with the operands its rule names (R92, R93).
A don't-care bit is no operand (R105), so it is no field. -/

namespace Sys2Proof

inductive Instr where
  /-- CLS, `00E0` (R225) -/
  | cls
  /-- RET, `00EE` (R132) -/
  | ret
  /-- SCR, `00FB` (R232) -/
  | scr
  /-- SCL, `00FC` (R233) -/
  | scl
  /-- EXIT, `00FD` (R235) -/
  | exit
  /-- LOW, `00FE` (R228) -/
  | low
  /-- HIGH, `00FF` (R229) -/
  | high
  /-- SKP Vx, `Ex9E` (R200) -/
  | skp (x : Nibble)
  /-- SKNP Vx, `ExA1` (R201) -/
  | sknp (x : Nibble)
  /-- LD Vx,DT, `Fx07` (R203) -/
  | ldVxDt (x : Nibble)
  /-- LD Vx,K, `Fx0A` (R202) -/
  | ldVxK (x : Nibble)
  /-- LD DT,Vx, `Fx15` (R204) -/
  | ldDtVx (x : Nibble)
  /-- LD ST,Vx, `Fx18` (R205) -/
  | ldStVx (x : Nibble)
  /-- ADD I,Vx, `Fx1E` (R181) -/
  | addIVx (x : Nibble)
  /-- LD F,Vx, `Fx29` (R182) -/
  | ldFVx (x : Nibble)
  /-- LD HF,Vx, `Fx30` (R183) -/
  | ldHfVx (x : Nibble)
  /-- LD B,Vx, `Fx33` (R185) -/
  | ldBVx (x : Nibble)
  /-- LD [I],Vx, `Fx55` (R186) -/
  | ldMemVx (x : Nibble)
  /-- LD Vx,[I], `Fx65` (R187) -/
  | ldVxMem (x : Nibble)
  /-- LD R,Vx, `Fx75` (R236) -/
  | ldRVx (x : Nibble)
  /-- LD Vx,R, `Fx85` (R237) -/
  | ldVxR (x : Nibble)
  /-- SE Vx,Vy, `5xy0` (R135) -/
  | seVxVy (x y : Nibble)
  /-- LD Vx,Vy, `8xy0` (R150) -/
  | ldVxVy (x y : Nibble)
  /-- OR Vx,Vy, `8xy1` (R151) -/
  | orVxVy (x y : Nibble)
  /-- AND Vx,Vy, `8xy2` (R152) -/
  | andVxVy (x y : Nibble)
  /-- XOR Vx,Vy, `8xy3` (R153) -/
  | xorVxVy (x y : Nibble)
  /-- ADD Vx,Vy, `8xy4` (R154) -/
  | addVxVy (x y : Nibble)
  /-- SUB Vx,Vy, `8xy5` (R155) -/
  | subVxVy (x y : Nibble)
  /-- SHR Vx,Vy, `8xy6` (R156) -/
  | shrVxVy (x y : Nibble)
  /-- SUBN Vx,Vy, `8xy7` (R157) -/
  | subnVxVy (x y : Nibble)
  /-- SHL Vx,Vy, `8xyE` (R158) -/
  | shlVxVy (x y : Nibble)
  /-- SNE Vx,Vy, `9xy0` (R136) -/
  | sneVxVy (x y : Nibble)
  /-- JP nnn, `1nnn` (R130) -/
  | jp (nnn : Addr12)
  /-- CALL nnn, `2nnn` (R131) -/
  | call (nnn : Addr12)
  /-- SE Vx,kk, `3xkk` (R133) -/
  | seVxKk (x : Nibble) (kk : Byte)
  /-- SNE Vx,kk, `4xkk` (R134) -/
  | sneVxKk (x : Nibble) (kk : Byte)
  /-- LD Vx,kk, `6xkk` (R170) -/
  | ldVxKk (x : Nibble) (kk : Byte)
  /-- ADD Vx,kk, `7xkk` (R171) -/
  | addVxKk (x : Nibble) (kk : Byte)
  /-- LD I,nnn, `Annn` (R180) -/
  | ldINnn (nnn : Addr12)
  /-- JP V0,nnn, `Bnnn` (R137) -/
  | jpV0 (nnn : Addr12)
  /-- RND Vx,kk, `Cxkk` (R172) -/
  | rnd (x : Nibble) (kk : Byte)
  /-- DRW Vx,Vy,n, `Dxyn` (R226) -/
  | drw (x y n : Nibble)
  /-- SCD n, `00Cn` (R230) -/
  | scd (n : Nibble)
  /-- SCU n, `00Bn` with the default KEY_SCU (R231) -/
  | scu (n : Nibble)
  deriving DecidableEq, Repr

end Sys2Proof
end

