-- ==== Sys2Proof/Config.lean ====
section
/-! DEFINITION. The implementation parameters of C8CORE (00_scope.md rules R6 to R10) and the free values, which have
no body: nothing in Lean can evaluate them, so a statement about one holds whatever it is. -/

namespace Sys2Proof

/-- The parameters "a model takes as an argument" (R7 to R10). Reset samples them and they do not change until the next
Reset (R301); the sampled copy is the field `cfg` of the state. -/
structure Config where
  /-- Q_SHIFT: SHR and SHL shift Vx when true, Vy when false (R7, R156, R158). -/
  qShift : Bool
  /-- Q_LDST: the block instructions advance I by x+1 (R7, R186, R187). -/
  qLdst : Bool
  /-- Q_WRAP: sprite pixels wrap when true, are clipped when false (R7, R227). -/
  qWrap : Bool
  /-- STACK_DEPTH: the greatest number of return addresses; `none` is `unbounded` (R8). -/
  stackDepth : Option Nat
  /-- FONT_ROM: the bytes of addresses 0x000 to 0x0FF after Reset (R9). -/
  fontRom : List Byte
  /-- FONT_HI_BASE (R9). -/
  fontHiBase : Nat
  /-- FONT_HI_STRIDE (R9). -/
  fontHiStride : Nat
  /-- KEY_SCU: the family-4 key of SCU (R10, R104). -/
  keyScu : Word
  /-- TICK_IN_WAIT: whether Tick acts in AWAITING_KEY (R10, R281). -/
  tickInWait : Bool
  deriving DecidableEq, Repr

/-- FREE VALUE. What `rnd8()` returns at its k-th draw (R173: "an 8-bit value about which the source says nothing").
Log entry 4. -/
opaque Config.rnd8 : Nat → Byte

/-- FREE VALUE. The byte of FONT_ROM at an address from 0x050 to 0x0FF, for which the spec gives no default (R69).
Log entry 3. -/
opaque Config.fontOpen : Nat → Byte

end Sys2Proof
end

