-- ==== Sys2Proof/WellFormed.lean ====
section
/-! DEFINITION. What the types leave to check: that a KEY_SCU keeps the key sets disjoint (30_encoding.md rule R104), that
a Config is one the spec admits (00_scope.md rules R8 to R10), and that an instruction has a word of its own under the
KEY_SCU at hand. Every operand is a bit field of exactly its width, so no operand can be out of range. -/

namespace Sys2Proof

/-- "of the form 0x00X0 with X not E ... and not C" (R104). -/
def keyScuOk (k : Word) : Bool :=
  k &&& 0xFF0F#16 == 0#16 && k != 0x00E0#16 && k != 0x00C0#16

/-- The Configs the spec admits: STACK_DEPTH is positive or unbounded (R8), FONT_ROM has 256 bytes (R9), KEY_SCU is as
R104 asks. -/
def Config.wellFormed (c : Config) : Bool :=
  c.stackDepth != some 0 && c.fontRom.length == 256 && keyScuOk c.keyScu

/-- Whether the instruction's canonical word is its own under KEY_SCU = `k`. Only SCU can fail it: with KEY_SCU = 0x00F0
the words 00FB to 00FF belong to family 1, which is asked first (R94, R98). With the default 0x00B0 every instruction
passes. Log entry 34. -/
def Instr.wellFormed (k : Word) : Instr → Bool
  | .cls => true
  | .ret => true
  | .scr => true
  | .scl => true
  | .exit => true
  | .low => true
  | .high => true
  | .skp _ => true
  | .sknp _ => true
  | .ldVxDt _ => true
  | .ldVxK _ => true
  | .ldDtVx _ => true
  | .ldStVx _ => true
  | .addIVx _ => true
  | .ldFVx _ => true
  | .ldHfVx _ => true
  | .ldBVx _ => true
  | .ldMemVx _ => true
  | .ldVxMem _ => true
  | .ldRVx _ => true
  | .ldVxR _ => true
  | .seVxVy _ _ => true
  | .ldVxVy _ _ => true
  | .orVxVy _ _ => true
  | .andVxVy _ _ => true
  | .xorVxVy _ _ => true
  | .addVxVy _ _ => true
  | .subVxVy _ _ => true
  | .shrVxVy _ _ => true
  | .subnVxVy _ _ => true
  | .shlVxVy _ _ => true
  | .sneVxVy _ _ => true
  | .jp _ => true
  | .call _ => true
  | .seVxKk _ _ => true
  | .sneVxKk _ _ => true
  | .ldVxKk _ _ => true
  | .addVxKk _ _ => true
  | .ldINnn _ => true
  | .jpV0 _ => true
  | .rnd _ _ => true
  | .drw _ _ _ => true
  | .scd _ => true
  | .scu n => !(k == 0x00F0#16 && decide (0xB ≤ n.toNat))

end Sys2Proof
end

