-- ==== Sys2Proof/Decode.lean ====
section
/-! DEFINITION. The classifier and decoder of 30_encoding.md (rules R90 to R108), then the encoder from the same tables.
`decodeWord` takes the first of the 44 table rows that matches, as R94 and INDEX.md ask of a decoder built from
opcode_table.json; `classify` is the pseudocode of R94 over the four key sets. -/

namespace Sys2Proof

/-- KEY_SCU's default (R10, R104; decision D4, log entry 9). -/
def defaultKeyScu : Word := 0x00B0#16

/-- The operand fields of the Opcode Descriptor (R92). -/
structure Fields where
  nnn : Addr12
  kk : Byte
  x : Nibble
  y : Nibble
  n : Nibble
  deriving DecidableEq, Repr

/-- The field decode of R92, the same for every word. -/
def fields (w : Word) : Fields where
  nnn := w.extractLsb' 0 12
  kk := w.extractLsb' 0 8
  x := w.extractLsb' 8 4
  y := w.extractLsb' 4 4
  n := w.extractLsb' 0 4

/-- The four mask families (R95). -/
inductive Family where
  | f1 | f2 | f3 | f4
  deriving DecidableEq, Repr

/-- The family's mask (R95). -/
def Family.mask : Family → Word
  | .f1 => 0xF0FF#16
  | .f2 => 0xF00F#16
  | .f3 => 0xF000#16
  | .f4 => 0x00F0#16

/-- The family's number, which is its place in the order of R94. -/
def Family.number : Family → Nat
  | .f1 => 1
  | .f2 => 2
  | .f3 => 3
  | .f4 => 4

/-- One row of the opcode table: its family, its key (the match value, also the canonical id, R96), and the
instruction it makes of a word's fields. -/
structure Row where
  family : Family
  key : Word
  build : Fields → Instr

/-- S1 (R98), 21 rows. -/
def rowsFamily1 : List Row :=
  [⟨.f1, 0x00E0#16, fun _ => .cls⟩,
   ⟨.f1, 0x00EE#16, fun _ => .ret⟩,
   ⟨.f1, 0x00FB#16, fun _ => .scr⟩,
   ⟨.f1, 0x00FC#16, fun _ => .scl⟩,
   ⟨.f1, 0x00FD#16, fun _ => .exit⟩,
   ⟨.f1, 0x00FE#16, fun _ => .low⟩,
   ⟨.f1, 0x00FF#16, fun _ => .high⟩,
   ⟨.f1, 0xE09E#16, fun d => .skp d.x⟩,
   ⟨.f1, 0xE0A1#16, fun d => .sknp d.x⟩,
   ⟨.f1, 0xF007#16, fun d => .ldVxDt d.x⟩,
   ⟨.f1, 0xF00A#16, fun d => .ldVxK d.x⟩,
   ⟨.f1, 0xF015#16, fun d => .ldDtVx d.x⟩,
   ⟨.f1, 0xF018#16, fun d => .ldStVx d.x⟩,
   ⟨.f1, 0xF01E#16, fun d => .addIVx d.x⟩,
   ⟨.f1, 0xF029#16, fun d => .ldFVx d.x⟩,
   ⟨.f1, 0xF030#16, fun d => .ldHfVx d.x⟩,
   ⟨.f1, 0xF033#16, fun d => .ldBVx d.x⟩,
   ⟨.f1, 0xF055#16, fun d => .ldMemVx d.x⟩,
   ⟨.f1, 0xF065#16, fun d => .ldVxMem d.x⟩,
   ⟨.f1, 0xF075#16, fun d => .ldRVx d.x⟩,
   ⟨.f1, 0xF085#16, fun d => .ldVxR d.x⟩]

/-- S2 (R100), 11 rows. -/
def rowsFamily2 : List Row :=
  [⟨.f2, 0x5000#16, fun d => .seVxVy d.x d.y⟩,
   ⟨.f2, 0x8000#16, fun d => .ldVxVy d.x d.y⟩,
   ⟨.f2, 0x8001#16, fun d => .orVxVy d.x d.y⟩,
   ⟨.f2, 0x8002#16, fun d => .andVxVy d.x d.y⟩,
   ⟨.f2, 0x8003#16, fun d => .xorVxVy d.x d.y⟩,
   ⟨.f2, 0x8004#16, fun d => .addVxVy d.x d.y⟩,
   ⟨.f2, 0x8005#16, fun d => .subVxVy d.x d.y⟩,
   ⟨.f2, 0x8006#16, fun d => .shrVxVy d.x d.y⟩,
   ⟨.f2, 0x8007#16, fun d => .subnVxVy d.x d.y⟩,
   ⟨.f2, 0x800E#16, fun d => .shlVxVy d.x d.y⟩,
   ⟨.f2, 0x9000#16, fun d => .sneVxVy d.x d.y⟩]

/-- S3 (R101), 10 rows. -/
def rowsFamily3 : List Row :=
  [⟨.f3, 0x1000#16, fun d => .jp d.nnn⟩,
   ⟨.f3, 0x2000#16, fun d => .call d.nnn⟩,
   ⟨.f3, 0x3000#16, fun d => .seVxKk d.x d.kk⟩,
   ⟨.f3, 0x4000#16, fun d => .sneVxKk d.x d.kk⟩,
   ⟨.f3, 0x6000#16, fun d => .ldVxKk d.x d.kk⟩,
   ⟨.f3, 0x7000#16, fun d => .addVxKk d.x d.kk⟩,
   ⟨.f3, 0xA000#16, fun d => .ldINnn d.nnn⟩,
   ⟨.f3, 0xB000#16, fun d => .jpV0 d.nnn⟩,
   ⟨.f3, 0xC000#16, fun d => .rnd d.x d.kk⟩,
   ⟨.f3, 0xD000#16, fun d => .drw d.x d.y d.n⟩]

/-- S4 (R104), 2 rows; the second key is the parameter KEY_SCU. -/
def rowsFamily4 (keyScu : Word) : List Row :=
  [⟨.f4, 0x00C0#16, fun d => .scd d.n⟩,
   ⟨.f4, keyScu, fun d => .scu d.n⟩]

/-- The 44 rows in classifier priority order. -/
def rows (keyScu : Word) : List Row :=
  rowsFamily1 ++ rowsFamily2 ++ rowsFamily3 ++ rowsFamily4 keyScu

/-- Whether a word belongs to a row when the row is asked alone. -/
def Row.takes (r : Row) (w : Word) : Bool := w &&& r.family.mask == r.key

/-- Why the decoder answers no instruction. -/
inductive DecodeError where
  /-- All four lookups fail (R107). Not a stop: Step takes ClassificationFailure (R262), a next state. -/
  | unclassified (word : Word)
  /-- Fewer than the two bytes of an instruction (R90); fetch never hands over so few. -/
  | truncated
  deriving DecidableEq, Repr

/-- The instruction a word is: the first row that takes it (R94). -/
def decodeWord (keyScu : Word) (w : Word) : Except DecodeError Instr :=
  match (rows keyScu).find? (fun r => r.takes w) with
  | some r => .ok (r.build (fields w))
  | none => .error (.unclassified w)

/-- The decoder on bytes, high byte first (R65, R90); answers the bytes that are left. -/
def decode (keyScu : Word) : List Byte → Except DecodeError (Instr × List Byte)
  | hi :: lo :: rest =>
    match decodeWord keyScu (wordOfBytes hi lo) with
    | .ok i => .ok (i, rest)
    | .error e => .error e
  | [_] => .error .truncated
  | [] => .error .truncated

/-- The known-opcode set of a family (R98, R100, R101, R104). -/
def knownSet (keyScu : Word) : Family → List Word
  | .f1 => rowsFamily1.map Row.key
  | .f2 => rowsFamily2.map Row.key
  | .f3 => rowsFamily3.map Row.key
  | .f4 => (rowsFamily4 keyScu).map Row.key

/-- The classification algorithm as R94 writes it: the winning family and the canonical id, or `none` for
UNCLASSIFIED. -/
def classify (keyScu : Word) (w : Word) : Option (Family × Word) :=
  if (knownSet keyScu .f1).contains (w &&& Family.f1.mask) then some (.f1, w &&& Family.f1.mask)
  else if (knownSet keyScu .f2).contains (w &&& Family.f2.mask) then some (.f2, w &&& Family.f2.mask)
  else if (knownSet keyScu .f3).contains (w &&& Family.f3.mask) then some (.f3, w &&& Family.f3.mask)
  else if (knownSet keyScu .f4).contains (w &&& Family.f4.mask) then some (.f4, w &&& Family.f4.mask)
  else none

/-- The instruction's family (R98, R100, R101, R104). -/
def Instr.family : Instr → Family
  | .cls => .f1
  | .ret => .f1
  | .scr => .f1
  | .scl => .f1
  | .exit => .f1
  | .low => .f1
  | .high => .f1
  | .skp _ => .f1
  | .sknp _ => .f1
  | .ldVxDt _ => .f1
  | .ldVxK _ => .f1
  | .ldDtVx _ => .f1
  | .ldStVx _ => .f1
  | .addIVx _ => .f1
  | .ldFVx _ => .f1
  | .ldHfVx _ => .f1
  | .ldBVx _ => .f1
  | .ldMemVx _ => .f1
  | .ldVxMem _ => .f1
  | .ldRVx _ => .f1
  | .ldVxR _ => .f1
  | .seVxVy _ _ => .f2
  | .ldVxVy _ _ => .f2
  | .orVxVy _ _ => .f2
  | .andVxVy _ _ => .f2
  | .xorVxVy _ _ => .f2
  | .addVxVy _ _ => .f2
  | .subVxVy _ _ => .f2
  | .shrVxVy _ _ => .f2
  | .subnVxVy _ _ => .f2
  | .shlVxVy _ _ => .f2
  | .sneVxVy _ _ => .f2
  | .jp _ => .f3
  | .call _ => .f3
  | .seVxKk _ _ => .f3
  | .sneVxKk _ _ => .f3
  | .ldVxKk _ _ => .f3
  | .addVxKk _ _ => .f3
  | .ldINnn _ => .f3
  | .jpV0 _ => .f3
  | .rnd _ _ => .f3
  | .drw _ _ _ => .f3
  | .scd _ => .f4
  | .scu _ => .f4

/-- The instruction's canonical id, its key (R96). -/
def Instr.id (keyScu : Word) : Instr → Word
  | .cls => 0x00E0#16
  | .ret => 0x00EE#16
  | .scr => 0x00FB#16
  | .scl => 0x00FC#16
  | .exit => 0x00FD#16
  | .low => 0x00FE#16
  | .high => 0x00FF#16
  | .skp _ => 0xE09E#16
  | .sknp _ => 0xE0A1#16
  | .ldVxDt _ => 0xF007#16
  | .ldVxK _ => 0xF00A#16
  | .ldDtVx _ => 0xF015#16
  | .ldStVx _ => 0xF018#16
  | .addIVx _ => 0xF01E#16
  | .ldFVx _ => 0xF029#16
  | .ldHfVx _ => 0xF030#16
  | .ldBVx _ => 0xF033#16
  | .ldMemVx _ => 0xF055#16
  | .ldVxMem _ => 0xF065#16
  | .ldRVx _ => 0xF075#16
  | .ldVxR _ => 0xF085#16
  | .seVxVy _ _ => 0x5000#16
  | .ldVxVy _ _ => 0x8000#16
  | .orVxVy _ _ => 0x8001#16
  | .andVxVy _ _ => 0x8002#16
  | .xorVxVy _ _ => 0x8003#16
  | .addVxVy _ _ => 0x8004#16
  | .subVxVy _ _ => 0x8005#16
  | .shrVxVy _ _ => 0x8006#16
  | .subnVxVy _ _ => 0x8007#16
  | .shlVxVy _ _ => 0x800E#16
  | .sneVxVy _ _ => 0x9000#16
  | .jp _ => 0x1000#16
  | .call _ => 0x2000#16
  | .seVxKk _ _ => 0x3000#16
  | .sneVxKk _ _ => 0x4000#16
  | .ldVxKk _ _ => 0x6000#16
  | .addVxKk _ _ => 0x7000#16
  | .ldINnn _ => 0xA000#16
  | .jpV0 _ => 0xB000#16
  | .rnd _ _ => 0xC000#16
  | .drw _ _ _ => 0xD000#16
  | .scd _ => 0x00C0#16
  | .scu _ => keyScu

/-- The word with op nibble `op` and address operand `nnn` (R91). -/
def wordOfAddr (op : Nibble) (nnn : Addr12) : Word := op ++ nnn

/-- The word with op nibble `op`, register `x` and immediate byte `kk` (R91). -/
def wordOfImm (op x : Nibble) (kk : Byte) : Word := op ++ x ++ kk

/-- The instruction's canonical word: the pattern of its row with 0 in every don't-care bit (R105, R111). -/
def encode (keyScu : Word) : Instr → Word
  | .cls => wordOfNibbles 0x0#4 0x0#4 0xE#4 0x0#4
  | .ret => wordOfNibbles 0x0#4 0x0#4 0xE#4 0xE#4
  | .scr => wordOfNibbles 0x0#4 0x0#4 0xF#4 0xB#4
  | .scl => wordOfNibbles 0x0#4 0x0#4 0xF#4 0xC#4
  | .exit => wordOfNibbles 0x0#4 0x0#4 0xF#4 0xD#4
  | .low => wordOfNibbles 0x0#4 0x0#4 0xF#4 0xE#4
  | .high => wordOfNibbles 0x0#4 0x0#4 0xF#4 0xF#4
  | .skp x => wordOfNibbles 0xE#4 x 0x9#4 0xE#4
  | .sknp x => wordOfNibbles 0xE#4 x 0xA#4 0x1#4
  | .ldVxDt x => wordOfNibbles 0xF#4 x 0x0#4 0x7#4
  | .ldVxK x => wordOfNibbles 0xF#4 x 0x0#4 0xA#4
  | .ldDtVx x => wordOfNibbles 0xF#4 x 0x1#4 0x5#4
  | .ldStVx x => wordOfNibbles 0xF#4 x 0x1#4 0x8#4
  | .addIVx x => wordOfNibbles 0xF#4 x 0x1#4 0xE#4
  | .ldFVx x => wordOfNibbles 0xF#4 x 0x2#4 0x9#4
  | .ldHfVx x => wordOfNibbles 0xF#4 x 0x3#4 0x0#4
  | .ldBVx x => wordOfNibbles 0xF#4 x 0x3#4 0x3#4
  | .ldMemVx x => wordOfNibbles 0xF#4 x 0x5#4 0x5#4
  | .ldVxMem x => wordOfNibbles 0xF#4 x 0x6#4 0x5#4
  | .ldRVx x => wordOfNibbles 0xF#4 x 0x7#4 0x5#4
  | .ldVxR x => wordOfNibbles 0xF#4 x 0x8#4 0x5#4
  | .seVxVy x y => wordOfNibbles 0x5#4 x y 0x0#4
  | .ldVxVy x y => wordOfNibbles 0x8#4 x y 0x0#4
  | .orVxVy x y => wordOfNibbles 0x8#4 x y 0x1#4
  | .andVxVy x y => wordOfNibbles 0x8#4 x y 0x2#4
  | .xorVxVy x y => wordOfNibbles 0x8#4 x y 0x3#4
  | .addVxVy x y => wordOfNibbles 0x8#4 x y 0x4#4
  | .subVxVy x y => wordOfNibbles 0x8#4 x y 0x5#4
  | .shrVxVy x y => wordOfNibbles 0x8#4 x y 0x6#4
  | .subnVxVy x y => wordOfNibbles 0x8#4 x y 0x7#4
  | .shlVxVy x y => wordOfNibbles 0x8#4 x y 0xE#4
  | .sneVxVy x y => wordOfNibbles 0x9#4 x y 0x0#4
  | .jp nnn => wordOfAddr 0x1#4 nnn
  | .call nnn => wordOfAddr 0x2#4 nnn
  | .seVxKk x kk => wordOfImm 0x3#4 x kk
  | .sneVxKk x kk => wordOfImm 0x4#4 x kk
  | .ldVxKk x kk => wordOfImm 0x6#4 x kk
  | .addVxKk x kk => wordOfImm 0x7#4 x kk
  | .ldINnn nnn => wordOfAddr 0xA#4 nnn
  | .jpV0 nnn => wordOfAddr 0xB#4 nnn
  | .rnd x kk => wordOfImm 0xC#4 x kk
  | .drw x y n => wordOfNibbles 0xD#4 x y n
  | .scd n => wordOfNibbles 0x0#4 0x0#4 0xC#4 n
  | .scu n => keyScu ||| n.setWidth 16

/-- The instruction's bytes as memory holds them, high byte first (R65). -/
def encodeBytes (keyScu : Word) (i : Instr) : List Byte :=
  [highByte (encode keyScu i), lowByte (encode keyScu i)]

/-- What a word loses when it is decoded and encoded again: its don't-care bits (R105, R120). The family-1 rows whose op
nibble is 0 do not read x; family 4 reads only y and n. -/
def significantBits (f : Family) (key : Word) : Word :=
  match f with
  | .f1 => if key &&& 0xF000#16 == 0#16 then 0xF0FF#16 else 0xFFFF#16
  | .f2 => 0xFFFF#16
  | .f3 => 0xFFFF#16
  | .f4 => 0x00FF#16

/-- The 16-bit word of the table's numbering: the low `nbits` bits of `w`, every bit above them 0. -/
def tableWord (nbits w : Nat) : Word := BitVec.ofNat 16 (w % 2 ^ nbits)

/-- What the decoder reads from the table's word `w`, its two bytes laid out high byte first (R65), with the default
KEY_SCU, which is the one opcode_table.json has. -/
def decodeTableWord (nbits w : Nat) : Option Instr :=
  match decode defaultKeyScu [highByte (tableWord nbits w), lowByte (tableWord nbits w)] with
  | .ok (i, _) => some i
  | .error _ => none

end Sys2Proof
end

