-- ==== Sys2Proof/Machine/Memory.lean ====
section
/-! DEFINITION. The 4096 bytes of memory (20_memory.md rules R60 to R75) as a list of cells over the reset contents: addresses
strictly rising, no cell equal to what an unlisted address reads as. -/

namespace Sys2Proof.Machine

/-- MEM_SIZE (R6, R60). -/
def memSize : Nat := 4096

/-- The number of addresses of the font region, 0x000 to 0x0FF (R6, R61). -/
def fontSize : Nat := 256

/-- PROG_BASE (R6). -/
def progBase : Nat := 0x200

/-- PROG_MAX (R6, R75). -/
def progMax : Nat := 0x0E00

/-- What an unlisted address reads as: the reset contents, FONT_ROM below 0x100 and 0x00 above (R46, R61, R300). -/
def unlisted (rom : List Byte) (a : Nat) : Byte :=
  if a < fontSize then rom.getD a 0#8 else 0#8

/-- The byte at an address (R14). -/
def memRead (rom : List Byte) : List Host.Cell → Nat → Byte
  | [], a => unlisted rom a
  | (b, v) :: m, a => if a = b then v else memRead rom m a

/-- The cell of `a` and `v` in front of `m`, left out when it says what an unlisted address says. -/
def consCell (rom : List Byte) (a : Nat) (v : Byte) (m : List Host.Cell) : List Host.Cell :=
  if v = unlisted rom a then m else (a, v) :: m

/-- Memory with the byte `v` at `a` (R14), in canonical form. -/
def memWrite (rom : List Byte) : List Host.Cell → Nat → Byte → List Host.Cell
  | [], a, v => consCell rom a v []
  | (b, u) :: m, a, v =>
    if a < b then consCell rom a v ((b, u) :: m)
    else if a = b then consCell rom a v m
    else (b, u) :: memWrite rom m a v

/-- The canonical form from address `lo` up. -/
def memWfFrom (rom : List Byte) : Nat → List Host.Cell → Bool
  | _, [] => true
  | lo, (a, v) :: m => decide (lo ≤ a) && decide (a < memSize) && v != unlisted rom a && memWfFrom rom (a + 1) m

/-- The canonical form: addresses strictly rising and below 4096, no cell that says what an unlisted address says. -/
def memWf (rom : List Byte) (m : List Host.Cell) : Bool := memWfFrom rom 0 m

/-- The cells of a byte string laid out from address `a` up (R75, R300). -/
def imageCells (rom : List Byte) : Nat → List Byte → List Host.Cell
  | _, [] => []
  | a, v :: vs => consCell rom a v (imageCells rom (a + 1) vs)

/-- Memory after Reset(program): the image "loaded verbatim starting at address 0x200", truncated to 0x0E00 bytes (R75,
R300, R302). -/
def loadProgram (rom : List Byte) (program : List Byte) : List Host.Cell :=
  imageCells rom progBase (program.take progMax)

end Sys2Proof.Machine
end

