-- ==== Sys2Proof/Machine/Defaults.lean ====
section
/-! DEFINITION. The default Config, the one State.reset samples: the defaults of 00_scope.md rules R8 to R10 and 20_memory.md
rules R68, R69, and the three quirks, which have none (R7; log entry 1). -/

namespace Sys2Proof.Machine

/-- The default FONT_ROM[0..79], sixteen 5-byte glyphs (R68, from general knowledge; log entry 3). -/
def fontLow : List Byte :=
  [0xF0#8, 0x90#8, 0x90#8, 0x90#8, 0xF0#8,  0x20#8, 0x60#8, 0x20#8, 0x20#8, 0x70#8] ++
  [0xF0#8, 0x10#8, 0xF0#8, 0x80#8, 0xF0#8,  0xF0#8, 0x10#8, 0xF0#8, 0x10#8, 0xF0#8] ++
  [0x90#8, 0x90#8, 0xF0#8, 0x10#8, 0x10#8,  0xF0#8, 0x80#8, 0xF0#8, 0x10#8, 0xF0#8] ++
  [0xF0#8, 0x80#8, 0xF0#8, 0x90#8, 0xF0#8,  0xF0#8, 0x10#8, 0x20#8, 0x40#8, 0x40#8] ++
  [0xF0#8, 0x90#8, 0xF0#8, 0x90#8, 0xF0#8,  0xF0#8, 0x90#8, 0xF0#8, 0x10#8, 0xF0#8] ++
  [0xF0#8, 0x90#8, 0xF0#8, 0x90#8, 0x90#8,  0xE0#8, 0x90#8, 0xE0#8, 0x90#8, 0xE0#8] ++
  [0xF0#8, 0x80#8, 0x80#8, 0x80#8, 0xF0#8,  0xE0#8, 0x90#8, 0x90#8, 0x90#8, 0xE0#8] ++
  [0xF0#8, 0x80#8, 0xF0#8, 0x80#8, 0xF0#8,  0xF0#8, 0x80#8, 0xF0#8, 0x80#8, 0x80#8]

/-- FONT_LO_BASE and FONT_LO_STRIDE, fixed by the source (R9, R182). -/
def fontLoBase : Nat := 0x000
def fontLoStride : Nat := 5

/-- The default FONT_ROM: the low-res font, then 176 free bytes (R68, R69). -/
def defaultFontRom : List Byte :=
  fontLow ++ (List.range 176).map fun k => Config.fontOpen (80 + k)

/-- The Config State.reset samples. -/
def defaultConfig : Config where
  qShift := false
  qLdst := false
  qWrap := false
  stackDepth := some 16
  fontRom := defaultFontRom
  fontHiBase := 0x050
  fontHiStride := 10
  keyScu := defaultKeyScu
  tickInWait := true

end Sys2Proof.Machine
end

