-- ==== Sys2Proof/Machine/Framebuffer.lean ====
section
/-! DEFINITION. The framebuffer and its primitives (10_state.md rules R38 to R40; 45_display_system.md rules R220 to R224,
R227): rows of bytes, row 0 on top, column 0 at the left, a byte 0x00 (off) or 0xFF (on). -/

namespace Sys2Proof.Machine

/-- MODE (10_state.md R31). -/
inductive Mode where
  | low | high
  deriving DecidableEq, Repr

/-- W (R38). -/
def Mode.width : Mode → Nat
  | .low => 64
  | .high => 128

/-- H (R38). -/
def Mode.height : Mode → Nat
  | .low => 32
  | .high => 64

/-- A pixel that is off (R39). -/
def pixelOff : Byte := 0x00#8

/-- A pixel that is on (R39). -/
def pixelOn : Byte := 0xFF#8

/-- A row of W bytes 0x00. -/
def blankRow (m : Mode) : List Byte := List.replicate m.width pixelOff

/-- A buffer of the mode's size with every byte 0x00: FbClear (R220) and the new buffer of FbSetMode (R224). -/
def blankFb (m : Mode) : List (List Byte) := List.replicate m.height (blankRow m)

/-- FB[r][c] (R38). -/
def fbPixel (fb : List (List Byte)) (r c : Nat) : Byte := (fb.getD r []).getD c pixelOff

/-- FbXorPixel's effect on the buffer (R221). -/
def fbXor (fb : List (List Byte)) (px py : Nat) : List (List Byte) :=
  fb.modify py (fun row => row.modify px (fun b => b ^^^ pixelOn))

/-- FbXorPixel's collision bit (R221). -/
def fbHit (fb : List (List Byte)) (px py : Nat) : Bool := fbPixel fb py px == pixelOn

/-- FbXorPixel at each of a list of (column, row) places in order; `col` is the collision bit so far (R226). -/
def fbDraw : List (Nat × Nat) → List (List Byte) → Bool → List (List Byte) × Bool
  | [], fb, col => (fb, col)
  | (px, py) :: ps, fb, col => fbDraw ps (fbXor fb px py) (fbHit fb px py || col)

/-- Place(u, v): the column and row where a sprite pixel lands, or `none` when it is not visible (R227). -/
def place (wrap : Bool) (m : Mode) (u v : Nat) : Option (Nat × Nat) :=
  if wrap then some (u % m.width, v % m.height)
  else if u < m.width ∧ v < m.height then some (u, v)
  else none

/-- Where the 1 bits of one sprite row land, leftmost first; bit 7 is the leftmost pixel (R226). -/
def rowPlaces (wrap : Bool) (m : Mode) (cx v : Nat) (bits : Byte) : List (Nat × Nat) :=
  (List.range 8).filterMap fun c => if bits.getLsbD (7 - c) then place wrap m (cx + c) v else none

/-- Where the 1 bits of a sprite land, row by row from row `cy` down (R226). -/
def spritePlaces (wrap : Bool) (m : Mode) (cx : Nat) : Nat → List Byte → List (Nat × Nat)
  | _, [] => []
  | cy, bits :: rest => rowPlaces wrap m cx cy bits ++ spritePlaces wrap m cx (cy + 1) rest

/-- FbScrollDown(k) (R222). -/
def fbScrollDown (m : Mode) (k : Nat) (old : List (List Byte)) : List (List Byte) :=
  (List.range m.height).map fun r => if k ≤ r then old.getD (r - k) (blankRow m) else blankRow m

/-- FbScrollUp(k) (R223). -/
def fbScrollUp (m : Mode) (k : Nat) (old : List (List Byte)) : List (List Byte) :=
  (List.range m.height).map fun r => if r + k < m.height then old.getD (r + k) (blankRow m) else blankRow m

/-- The shape R38 and R39 give the buffer: H rows of W bytes, each 0x00 or 0xFF. -/
def fbWf (m : Mode) (fb : List (List Byte)) : Bool :=
  fb.length == m.height &&
    fb.all fun row => row.length == m.width && row.all fun b => b == pixelOff || b == pixelOn

end Sys2Proof.Machine
end

