-- ==== Sys2Proof/Machine/State.lean ====
section
/-! DEFINITION. The state of C8CORE (10_state.md rules R20 to R47), the two reasons a step can stop, and the state after
Reset. -/

namespace Sys2Proof.Machine

/-- RUN (R32, R275). -/
inductive RunState where
  | running | awaitingKey | halted
  deriving DecidableEq, Repr

/-- What an error report names (60_exceptions.md R261). -/
inductive Cause where
  /-- Code 1, raised by Step for an UNCLASSIFIED word; info is the word. -/
  | classificationFailure
  /-- Code 2, raised by Step when pc + 1 >= 4096; info is pc. -/
  | fetchRange
  /-- Code 3, raised by DRW, LD B,Vx, LD [I],Vx, LD Vx,[I]; info is max(I, 4096). -/
  | memRange
  /-- Code 4, raised by CALL on a full stack; info is len(STK). -/
  | stackOverflow
  /-- Code 5, raised by RET on an empty stack; info is 0. -/
  | stackUnderflow
  /-- Code 6, raised by SKP and SKNP when V[x] > 15; info is V[x]. -/
  | keyIndex
  deriving DecidableEq, Repr

/-- One Report(cause, info) (R41, R261). -/
structure Report where
  cause : Cause
  info : Nat
  deriving DecidableEq, Repr

/-- The atomic events (00_scope.md R16). A Reset carries the Config it samples (R301) and the program image (R300). -/
inductive Event where
  | step
  | tick
  | keypadWrite (snapshot : BitVec 16)
  | present
  | shutdown
  | reset (cfg : Config) (program : List Byte)
  deriving DecidableEq, Repr

/-- The machine's state. -/
structure State where
  /-- V[0] to V[15] (R20). -/
  v : Vector Byte 16
  /-- PC (R23). -/
  pc : Word
  /-- I (R26). -/
  ireg : Word
  /-- STK, most recently pushed first (R27). -/
  stk : List Word
  /-- DT (R35). -/
  dt : Byte
  /-- ST (R36). -/
  st : Byte
  /-- KEY, bit k is key k (R34). -/
  key : BitVec 16
  /-- MODE (R31). -/
  mode : Mode
  /-- FB, row by row (R38, R39). -/
  fb : List (List Byte)
  /-- DIRTY (R30). -/
  dirty : Bool
  /-- RUN (R32). -/
  run : RunState
  /-- WREG (R33). -/
  wreg : Nibble
  /-- CF (R41). -/
  cf : Bool
  /-- HF (R41). -/
  hf : Bool
  /-- Memory (R44, R60), the cells that differ from the reset contents. -/
  mem : List Host.Cell
  /-- The Config sampled at the latest Reset (R301). -/
  cfg : Config
  /-- The Report output recorded as a list, oldest first (R41). -/
  reports : List Report
  /-- The model's own: how many values rnd8() has returned; the argument of the free value Config.rnd8 (R173). -/
  draws : Nat
  /-- The model's own: the events that happen next, in order, one a step; when it is empty every next event is Step (R16). -/
  schedule : List Event
  deriving DecidableEq, Repr

/-- Why a step stops with a fault. No constructor: no error of this hardware stops it ("No error in normal operation is
fatal", R260), and both error classes have a next state (R262, R264). Nobody raises one; safe. -/
inductive Fault where
  deriving DecidableEq, Repr

/-- Why a step is refused. -/
inductive Refusal where
  /-- Raised by an arm of exec whose instruction has no meaning yet; no arm does. Safe: the model stops. -/
  | notModelled (mnemonic : String)
  deriving DecidableEq, Repr

/-- The machine right after Reset with Config `cfg` and program image `program` (R46, R300). -/
def State.resetWith (cfg : Config) (program : List Byte) : State where
  v := Vector.replicate 16 0x00#8
  pc := 0x0200#16
  ireg := 0x0000#16
  stk := []
  dt := 0x00#8
  st := 0x00#8
  key := 0x0000#16
  mode := .low
  fb := blankFb .low
  dirty := false
  run := .running
  wreg := 0x0#4
  cf := false
  hf := false
  mem := loadProgram cfg.fontRom program
  cfg := cfg
  reports := []
  draws := 0
  schedule := []

/-- The machine right after Reset, with the default Config and no program (log entry 26). -/
def State.reset : State := State.resetWith defaultConfig []

end Sys2Proof.Machine
end

