-- ==== Sys2Proof/Machine/Ops.lean ====
section
/-! DEFINITION. The named operations over registers, memory, stack, framebuffer and status; taking an error (60_exceptions.md
rules R262, R264), which is all the exception entry this hardware has (R267: no state is saved, no mode changes, nothing
returns, R269). -/

namespace Sys2Proof.Machine

/-- What executing an instruction answers. -/
abbrev Result := Host.Outcome State Fault Refusal

/-! ## Registers -/

/-- VF, the flag register (R21, R29). -/
def flagReg : Nibble := 0xF#4

/-- V[i] (R13, R20). -/
def State.reg (s : State) (i : Nibble) : Byte := s.v[i.toNat]'i.isLt

/-- `V[i] <- b` (R13, R20). -/
def State.setReg (s : State) (i : Nibble) (b : Byte) : State :=
  { s with v := s.v.set i.toNat b i.isLt }

/-- `I <- w` (R26). -/
def State.setI (s : State) (w : Word) : State := { s with ireg := w }

/-! ## Program counter -/

/-- `pc <- target` (R13, R25: the target as it is, odd or even). -/
def State.jump (s : State) (target : Word) : State := { s with pc := target }

/-- `pc <- (pc + 2) mod 65536` (R24, R25). -/
def State.advance (s : State) : State := s.jump (s.pc + 2#16)

/-- `pc <- (pc + 4) mod 65536`, a taken skip (R24, R25). -/
def State.skip (s : State) : State := s.jump (s.pc + 4#16)

/-- A conditional skip: over one word when the condition holds, else to the next word (R24). -/
def State.skipIf (s : State) (taken : Bool) : State := if taken then s.skip else s.advance

/-! ## Errors -/

/-- `emit Report(cause, info)` (R41, R261). -/
def State.report (s : State) (cause : Cause) (info : Nat) : State :=
  { s with reports := s.reports ++ [⟨cause, info⟩] }

/-- ClassificationFailure(word): CF <- 1, a report, pc + 2, nothing else (R262). -/
def classificationFailure (word : Word) (s : State) : State :=
  ({ s with cf := true }.report .classificationFailure word.toNat).advance

/-- HandlerFault(cause, info): HF <- 1, a report, pc + 2, nothing else; RUN stays (R264). Log entry 6. -/
def handlerFault (cause : Cause) (info : Nat) (s : State) : State :=
  ({ s with hf := true }.report cause info).advance

/-- The code of a cause (R261). -/
def Cause.code : Cause → Nat
  | .classificationFailure => 1
  | .fetchRange => 2
  | .memRange => 3
  | .stackOverflow => 4
  | .stackUnderflow => 5
  | .keyIndex => 6

/-! ## Memory -/

/-- `MemRead(a, 1)` for `a < 4096` (R14); a caller checks the range first (R63). -/
def State.byteAt (s : State) (a : Nat) : Byte := memRead s.cfg.fontRom s.mem a

/-- `MemWrite(a, 1, b)` (R14). An address of 4096 or more, which every caller rules out first, writes nothing. -/
def State.setByte (s : State) (a : Nat) (b : Byte) : State :=
  if a < memSize then { s with mem := memWrite s.cfg.fontRom s.mem a b } else s

/-- The bytes at `a` to `a + n - 1`, in order. -/
def State.bytesFrom (s : State) (a n : Nat) : List Byte := (List.range n).map fun k => s.byteAt (a + k)

/-- The bytes `bs` stored from `a` up, in ascending order (R65). -/
def State.setBytes (s : State) (a : Nat) : List Byte → State
  | [] => s
  | b :: bs => (s.setByte a b).setBytes (a + 1) bs

/-- An instruction that touches `count` bytes at I: MemRange when one of them lies at 4096 or above, with the smallest such
address as info, before anything is written; otherwise the instruction's own effect (R63, R184, R265). -/
def withBytesAtI (count : Nat) (s : State) (ok : State) : State :=
  if 0 < count ∧ s.ireg.toNat + count - 1 ≥ memSize then
    handlerFault .memRange (max s.ireg.toNat memSize) s
  else ok

/-- The registers V[0] to V[k-1], in order. -/
def State.firstRegs (s : State) (k : Nat) : List Byte :=
  (List.range k).map fun j => s.reg (BitVec.ofNat 4 j)

/-- `V[0] .. V[k-1]` loaded from the bytes at `base` up, ascending (R187). -/
def State.loadRegs (base : Nat) : Nat → State → State
  | 0, s => s
  | k + 1, s => (State.loadRegs base k s).setReg (BitVec.ofNat 4 k) (s.byteAt (base + k))

/-- The 16-bit word at `a` and `a + 1`, the first byte in bits 15:8: `MemRead(a, 2)` (R14, R64). -/
def State.wordAt (s : State) (a : Nat) : Word := wordOfBytes (s.byteAt a) (s.byteAt (a + 1))

/-- The state with the word `w` at `a` and `a + 1`, high byte first (R65). -/
def State.setWordAt (s : State) (a : Nat) (w : Word) : State :=
  (s.setByte a (highByte w)).setByte (a + 1) (lowByte w)

/-! ## Call stack -/

/-- Whether `len(STK) = STACK_DEPTH`, never so when the depth is unbounded (R28, R131). -/
def State.stackFull (s : State) : Bool :=
  match s.cfg.stackDepth with
  | none => false
  | some d => decide (s.stk.length = d)

/-- `push(STK, w)` (R27). -/
def State.push (s : State) (w : Word) : State := { s with stk := w :: s.stk }

/-! ## Display -/

/-- `DIRTY <- 1` (R30). -/
def State.markDirty (s : State) : State := { s with dirty := true }

/-- `FbClear()` (R220). -/
def State.fbClear (s : State) : State := { s with fb := blankFb s.mode }

/-- `FbSetMode(m)` (R224). -/
def State.fbSetMode (s : State) (m : Mode) : State := { s with mode := m, fb := blankFb m }

/-- FB[r][c] of the state (R38). -/
def State.pixel (s : State) (r c : Nat) : Byte := fbPixel s.fb r c

/-- The picture a Present hands over: W*H bytes, that of pixel (r, c) at index r*W + c, with W and H (R39, R284). -/
def State.picture (s : State) : List Byte × Nat × Nat := (s.fb.flatten, s.mode.width, s.mode.height)

/-! ## Timers, keypad, draws -/

/-- TONE (R37). -/
def State.tone (s : State) : Bool := decide (0 < s.st.toNat)

/-- KEY[k] (R34). -/
def State.keyDown (s : State) (k : Nat) : Bool := s.key.getLsbD k

/-- The value the next `rnd8()` returns (R173), a free value. -/
def State.rndByte (s : State) : Byte := Config.rnd8 s.draws

/-- The state after a draw: the next draw is another free value. -/
def State.drawn (s : State) : State := { s with draws := s.draws + 1 }

/-- `RUN <- r` (R32). -/
def State.setRun (s : State) (r : RunState) : State := { s with run := r }

end Sys2Proof.Machine
end

