-- ==== Sys2Proof/Machine/Flags.lean ====
section
/-! DEFINITION. What is written to VF as a flag (10_state.md rule R29; 41_arith_logic.md rule R159) and in which order with the
result (R160). -/

namespace Sys2Proof.Machine

/-- A flag's byte: 1 or 0. -/
def flagByte (b : Bool) : Byte := if b then 0x01#8 else 0x00#8

/-- ADD's flag: the sum exceeds 255 (R154). -/
def carryOf (a b : Byte) : Byte := flagByte (decide (a.toNat + b.toNat > 255))

/-- SUB's flag: the left operand is strictly greater (R155); SUBN's with the operands reversed (R157). -/
def greaterOf (a b : Byte) : Byte := flagByte (decide (a.toNat > b.toNat))

/-- SHR's flag: bit 0 (R156). -/
def bitOutRight (a : Byte) : Byte := flagByte (a.getLsbD 0)

/-- SHL's flag: bit 7 (R158). -/
def bitOutLeft (a : Byte) : Byte := flagByte (a.getLsbD 7)

/-- `V[15] <- flag` (R29). -/
def State.setFlag (s : State) (flag : Byte) : State := s.setReg flagReg flag

/-- Result first, then the flag: what remains in VF when x = F is the flag (R160: ADD, SUB, SUBN). -/
def State.setRegThenFlag (s : State) (x : Nibble) (result flag : Byte) : State := (s.setReg x result).setFlag flag

/-- Flag first, then the result computed from the source register READ AGAIN (R160: SHR, SHL). -/
def State.setFlagThenReg (s : State) (x src : Nibble) (flag : Byte) (shift : Byte → Byte) : State :=
  (s.setFlag flag).setReg x (shift ((s.setFlag flag).reg src))

end Sys2Proof.Machine
end

