-- ==== Sys2Proof/Machine/Operands.lean ====
section
/-! DEFINITION. The operand forms (30_encoding.md rule R93; 43_index_memory.md rules R182 to R184): registers by number,
immediates as unsigned fields, the address of a glyph, the source of a shift, the key numbered by a register. -/

namespace Sys2Proof.Machine

/-- `zext_16(nnn)` (R93). -/
def addrOf (nnn : Addr12) : Word := nnn.setWidth 16

/-- A register's value zero-extended to 16 bits (R12, R137, R181). -/
def zext16 (b : Byte) : Word := b.setWidth 16

/-- The number of rows or lines an `n` operand counts, 0 to 15 (R93). -/
def countOf (n : Nibble) : Nat := n.toNat

/-- How many registers a block instruction moves, V0 to Vx: x + 1 (R186, R187). -/
def blockLength (x : Nibble) : Nat := x.toNat + 1

/-- The index `s` of the shifted register: x when Q_SHIFT = 1, else y (R156, R158). -/
def shiftSource (s : State) (x y : Nibble) : Nibble := if s.cfg.qShift then x else y

/-- The address of a low-res glyph: FONT_LO_BASE + 5 * V[x], V[x] not masked (R182). -/
def loGlyph (digit : Byte) : Word := BitVec.ofNat 16 (fontLoBase + fontLoStride * digit.toNat)

/-- The address of a high-res glyph: FONT_HI_BASE + FONT_HI_STRIDE * V[x], V[x] not masked (R183). -/
def hiGlyph (c : Config) (digit : Byte) : Word := BitVec.ofNat 16 (c.fontHiBase + c.fontHiStride * digit.toNat)

/-- The decimal digits of a byte: hundreds, tens, units (R185). -/
def bcdDigits (b : Byte) : List Byte :=
  [BitVec.ofNat 8 (b.toNat / 100), BitVec.ofNat 8 (b.toNat / 10 % 10), BitVec.ofNat 8 (b.toNat % 10)]

/-- A skip on the key numbered by a register value: KeyIndex when the value is no key, else a skip when the key's state is
`want` (R200, R201). -/
def skipOnKey (k : Byte) (want : Bool) (s : State) : State :=
  if 15 < k.toNat then handlerFault .keyIndex k.toNat s
  else s.skipIf (s.keyDown k.toNat == want)

/-- `I <- (I + x + 1) mod 65536` when Q_LDST = 1 (R186, R187). -/
def autoIncrement (x : Nibble) (s : State) : State :=
  if s.cfg.qLdst then s.setI (s.ireg + BitVec.ofNat 16 (blockLength x)) else s

end Sys2Proof.Machine
end

