-- ==== Sys2Proof/Machine/ArithLogic.lean ====
section
/-! DEFINITION. The register arithmetic and logic instructions (41_arith_logic.md rules R150 to R160). -/

namespace Sys2Proof.Machine

/-- LD Vx,Vy (R150). -/
def execLdVxVy (x y : Nibble) (s : State) : Result := .next (s.setReg x (s.reg y)).advance

/-- OR Vx,Vy (R151): VF is not written as a flag. -/
def execOrVxVy (x y : Nibble) (s : State) : Result := .next (s.setReg x (s.reg x ||| s.reg y)).advance

/-- AND Vx,Vy (R152). -/
def execAndVxVy (x y : Nibble) (s : State) : Result := .next (s.setReg x (s.reg x &&& s.reg y)).advance

/-- XOR Vx,Vy (R153). -/
def execXorVxVy (x y : Nibble) (s : State) : Result := .next (s.setReg x (s.reg x ^^^ s.reg y)).advance

/-- ADD Vx,Vy (R154). -/
def execAddVxVy (x y : Nibble) (s : State) : Result :=
  .next (s.setRegThenFlag x (s.reg x + s.reg y) (carryOf (s.reg x) (s.reg y))).advance

/-- SUB Vx,Vy (R155). -/
def execSubVxVy (x y : Nibble) (s : State) : Result :=
  .next (s.setRegThenFlag x (s.reg x - s.reg y) (greaterOf (s.reg x) (s.reg y))).advance

/-- SUBN Vx,Vy (R157). -/
def execSubnVxVy (x y : Nibble) (s : State) : Result :=
  .next (s.setRegThenFlag x (s.reg y - s.reg x) (greaterOf (s.reg y) (s.reg x))).advance

/-- SHR Vx,Vy (R156). -/
def execShrVxVy (x y : Nibble) (s : State) : Result :=
  .next (s.setFlagThenReg x (shiftSource s x y) (bitOutRight (s.reg (shiftSource s x y))) (fun b => b >>> 1)).advance

/-- SHL Vx,Vy (R158). -/
def execShlVxVy (x y : Nibble) (s : State) : Result :=
  .next (s.setFlagThenReg x (shiftSource s x y) (bitOutLeft (s.reg (shiftSource s x y))) (fun b => b <<< 1)).advance

end Sys2Proof.Machine
end

