-- ==== Sys2Proof/Machine/ControlFlow.lean ====
section
/-! DEFINITION. The control-flow instructions (40_control_flow.md rules R130 to R137). -/

namespace Sys2Proof.Machine

/-- JP nnn (R130). -/
def execJp (nnn : Addr12) (s : State) : Result := .next (s.jump (addrOf nnn))

/-- CALL nnn (R131): the pushed value is the CALL's own address. -/
def execCall (nnn : Addr12) (s : State) : Result :=
  if s.stackFull then .next (handlerFault .stackOverflow s.stk.length s)
  else .next ((s.push s.pc).jump (addrOf nnn))

/-- RET (R132): the + 2 is part of RET. -/
def execRet (s : State) : Result :=
  match s.stk with
  | [] => .next (handlerFault .stackUnderflow 0 s)
  | a :: rest => .next ({ s with stk := rest }.jump (a + 2#16))

/-- SE Vx,kk (R133). -/
def execSeVxKk (x : Nibble) (kk : Byte) (s : State) : Result := .next (s.skipIf (s.reg x == kk))

/-- SNE Vx,kk (R134). -/
def execSneVxKk (x : Nibble) (kk : Byte) (s : State) : Result := .next (s.skipIf (s.reg x != kk))

/-- SE Vx,Vy (R135). -/
def execSeVxVy (x y : Nibble) (s : State) : Result := .next (s.skipIf (s.reg x == s.reg y))

/-- SNE Vx,Vy (R136). -/
def execSneVxVy (x y : Nibble) (s : State) : Result := .next (s.skipIf (s.reg x != s.reg y))

/-- JP V0,nnn (R137): the offset register is always V0. -/
def execJpV0 (nnn : Addr12) (s : State) : Result := .next (s.jump (addrOf nnn + zext16 (s.reg 0x0#4)))

end Sys2Proof.Machine
end

