-- ==== Sys2Proof/Machine/DisplaySystem.lean ====
section
/-! DEFINITION. The display, resolution, scroll and system instructions (45_display_system.md rules R225 to R237). -/

namespace Sys2Proof.Machine

/-- CLS (R225). -/
def execCls (s : State) : Result := .next s.fbClear.markDirty.advance

/-- The places DRW toggles: the sprite's n bytes at I, its top-left pixel at column V[x], row V[y] (R226, R227). -/
def drwPlaces (x y n : Nibble) (s : State) : List (Nat × Nat) :=
  spritePlaces s.cfg.qWrap s.mode (s.reg x).toNat (s.reg y).toNat (s.bytesFrom s.ireg.toNat (countOf n))

/-- The state with a drawn buffer and its collision bit in VF, the flag last (R226). -/
def State.setDrawn (s : State) (d : List (List Byte) × Bool) : State :=
  { s with fb := d.1 }.setFlag (flagByte d.2)

/-- DRW Vx,Vy,n (R226). -/
def execDrw (x y n : Nibble) (s : State) : Result :=
  .next (withBytesAtI (countOf n) s (s.setDrawn (fbDraw (drwPlaces x y n s) s.fb false)).markDirty.advance)

/-- LOW (R228). -/
def execLow (s : State) : Result := .next (s.fbSetMode .low).markDirty.advance

/-- HIGH (R229). -/
def execHigh (s : State) : Result := .next (s.fbSetMode .high).markDirty.advance

/-- SCD n (R230). -/
def execScd (n : Nibble) (s : State) : Result :=
  .next { s with fb := fbScrollDown s.mode (countOf n) s.fb }.markDirty.advance

/-- SCU n (R231). -/
def execScu (n : Nibble) (s : State) : Result :=
  .next { s with fb := fbScrollUp s.mode (countOf n) s.fb }.markDirty.advance

/-- SCR (R232): accepted, no effect but pc. -/
def execScr (s : State) : Result := .next s.advance

/-- SCL (R233): accepted, no effect but pc. -/
def execScl (s : State) : Result := .next s.advance

/-- EXIT (R235): pc stays. -/
def execExit (s : State) : Result := .next (s.setRun .halted)

/-- LD R,Vx (R236): accepted, no effect but pc; x is ignored. -/
def execLdRVx (_x : Nibble) (s : State) : Result := .next s.advance

/-- LD Vx,R (R237): accepted, no effect but pc; x is ignored. -/
def execLdVxR (_x : Nibble) (s : State) : Result := .next s.advance

end Sys2Proof.Machine
end

