-- ==== Sys2Proof/Machine/ImmediateRandom.lean ====
section
/-! DEFINITION. The immediate and random instructions (42_immediate_random.md rules R170 to R173). -/

namespace Sys2Proof.Machine

/-- LD Vx,kk (R170). -/
def execLdVxKk (x : Nibble) (kk : Byte) (s : State) : Result := .next (s.setReg x kk).advance

/-- ADD Vx,kk (R171): no flag effect. -/
def execAddVxKk (x : Nibble) (kk : Byte) (s : State) : Result := .next (s.setReg x (s.reg x + kk)).advance

/-- RND Vx,kk (R172): a free byte masked by kk. Log entry 4. -/
def execRnd (x : Nibble) (kk : Byte) (s : State) : Result := .next (s.drawn.setReg x (s.rndByte &&& kk)).advance

end Sys2Proof.Machine
end

