-- ==== Sys2Proof/Machine/IndexMemory.lean ====
section
/-! DEFINITION. The address-register and memory instructions (43_index_memory.md rules R180 to R187). -/

namespace Sys2Proof.Machine

/-- LD I,nnn (R180). -/
def execLdINnn (nnn : Addr12) (s : State) : Result := .next (s.setI (addrOf nnn)).advance

/-- ADD I,Vx (R181): 16-bit wrap, no flag. -/
def execAddIVx (x : Nibble) (s : State) : Result := .next (s.setI (s.ireg + zext16 (s.reg x))).advance

/-- LD F,Vx (R182). -/
def execLdFVx (x : Nibble) (s : State) : Result := .next (s.setI (loGlyph (s.reg x))).advance

/-- LD HF,Vx (R183). -/
def execLdHfVx (x : Nibble) (s : State) : Result := .next (s.setI (hiGlyph s.cfg (s.reg x))).advance

/-- LD B,Vx (R185). -/
def execLdBVx (x : Nibble) (s : State) : Result :=
  .next (withBytesAtI 3 s (s.setBytes s.ireg.toNat (bcdDigits (s.reg x))).advance)

/-- LD [I],Vx (R186). -/
def execLdMemVx (x : Nibble) (s : State) : Result :=
  .next (withBytesAtI (blockLength x) s
    (autoIncrement x (s.setBytes s.ireg.toNat (s.firstRegs (blockLength x)))).advance)

/-- LD Vx,[I] (R187). -/
def execLdVxMem (x : Nibble) (s : State) : Result :=
  .next (withBytesAtI (blockLength x) s
    (autoIncrement x (State.loadRegs s.ireg.toNat (blockLength x) s)).advance)

end Sys2Proof.Machine
end

