-- ==== Sys2Proof/Machine/KeypadTimer.lean ====
section
/-! DEFINITION. The keypad and timer instructions (44_keypad_timer.md rules R200 to R205). -/

namespace Sys2Proof.Machine

/-- SKP Vx (R200). -/
def execSkp (x : Nibble) (s : State) : Result := .next (skipOnKey (s.reg x) true s)

/-- SKNP Vx (R201). -/
def execSknp (x : Nibble) (s : State) : Result := .next (skipOnKey (s.reg x) false s)

/-- LD Vx,K (R202): the wait begins; pc stays; a KeypadWrite event completes it (R282). -/
def execLdVxK (x : Nibble) (s : State) : Result := .next { s with wreg := x, run := .awaitingKey }

/-- LD Vx,DT (R203). -/
def execLdVxDt (x : Nibble) (s : State) : Result := .next (s.setReg x s.dt).advance

/-- LD DT,Vx (R204). -/
def execLdDtVx (x : Nibble) (s : State) : Result := .next { s with dt := s.reg x }.advance

/-- LD ST,Vx (R205). -/
def execLdStVx (x : Nibble) (s : State) : Result := .next { s with st := s.reg x }.advance

end Sys2Proof.Machine
end

