-- ==== Sys2Proof/Machine/Events.lean ====
section
/-! DEFINITION. The atomic events (00_scope.md rule R16): Step (60_exceptions.md R276) and the host's Tick (R281), KeypadWrite
(R282), Present (R284), Shutdown (R285), Reset (70_reset_and_hazards.md R300). An event that is not enabled changes
nothing (R275, vectors K16, T14, P6; log entry 32). -/

namespace Sys2Proof.Machine

/-- The body of Step in RUNNING: fetch, classify, execute (R276, R64, R94, R262). -/
def fetchAndExec (s : State) : Result :=
  if s.pc.toNat + 1 ≥ memSize then .next (handlerFault .fetchRange s.pc.toNat s)
  else
    match decodeWord s.cfg.keyScu (s.wordAt s.pc.toNat) with
    | .ok i => exec i s
    | .error _ => .next (classificationFailure (s.wordAt s.pc.toNat) s)

/-- Step, enabled iff RUN = RUNNING (R276). -/
def stepEvent (s : State) : Result :=
  match s.run with
  | .running => fetchAndExec s
  | .awaitingKey => .next s
  | .halted => .next s

/-- One tick of a down-counter: an inactive one stays 0 (R281). -/
def tickTimer (t : Byte) : Byte := if 0 < t.toNat then t - 1#8 else t

/-- Whether Tick acts: in RUNNING, and in AWAITING_KEY when TICK_IN_WAIT (R281). -/
def State.ticking (s : State) : Bool :=
  match s.run with
  | .running => true
  | .awaitingKey => s.cfg.tickInWait
  | .halted => false

/-- Tick (R281). -/
def tickEvent (s : State) : State :=
  if s.ticking then { s with dt := tickTimer s.dt, st := tickTimer s.st } else s

/-- The fresh keys of a snapshot against the one before it, lowest first (R282). -/
def freshKeys (old new : BitVec 16) : List Nat :=
  (List.range 16).filter fun k => new.getLsbD k && !old.getLsbD k

/-- The wake-up of LD Vx,K by key `k` (R202, R282). -/
def wakeUp (k : Nat) (s : State) : State :=
  ((s.setReg s.wreg (BitVec.ofNat 8 k)).advance).setRun .running

/-- KeypadWrite(snapshot) (R282): in AWAITING_KEY the lowest fresh key completes LD Vx,K. -/
def keypadEvent (snapshot : BitVec 16) (s : State) : State :=
  match s.run with
  | .awaitingKey =>
    match freshKeys s.key snapshot with
    | [] => { s with key := snapshot }
    | k :: _ => wakeUp k { s with key := snapshot }
  | .running => { s with key := snapshot }
  | .halted => { s with key := snapshot }

/-- Present, enabled iff DIRTY = 1 (R284): the host takes `State.picture`, then DIRTY <- 0. -/
def presentEvent (s : State) : State := if s.dirty then { s with dirty := false } else s

/-- Shutdown (R285). -/
def shutdownEvent (s : State) : State :=
  match s.run with
  | .running => s.setRun .halted
  | .awaitingKey => s.setRun .halted
  | .halted => s

/-- Reset(program) with the Config it samples (R300, R301), in any run state (D36). The model's own bookkeeping goes on: the
report output already emitted, the draws made, the events still to come (log entry 30). -/
def resetEvent (cfg : Config) (program : List Byte) (s : State) : State :=
  { State.resetWith cfg program with reports := s.reports, draws := s.draws, schedule := s.schedule }

/-- One event. -/
def runEvent (e : Event) (s : State) : Result :=
  match e with
  | .step => stepEvent s
  | .tick => .next (tickEvent s)
  | .keypadWrite snapshot => .next (keypadEvent snapshot s)
  | .present => .next (presentEvent s)
  | .shutdown => .next (shutdownEvent s)
  | .reset cfg program => .next (resetEvent cfg program s)

/-- The event that happens next and the state in which it happens: the schedule's first, or Step when it is empty (R16). -/
def nextEvent (s : State) : Event × State :=
  match s.schedule with
  | [] => (.step, s)
  | e :: rest => (e, { s with schedule := rest })

/-- The state whose next event is a Step that fetches the word `w`: RUNNING, Step scheduled first, the word's bytes at pc
and pc + 1. -/
def placeWordAtPc (w : Word) (s : State) : State :=
  { s.setWordAt s.pc.toNat w with run := .running, schedule := .step :: s.schedule }

end Sys2Proof.Machine
end

