-- ==== Sys2Proof/Machine/Step.lean ====
section
/-! DEFINITION. One step of the machine is one atomic event (00_scope.md rule R16); a Step event executes one instruction. -/

namespace Sys2Proof.Machine

/-- One step: the next event of the schedule, or a Step event when the schedule is empty (R16, R276; log entry 2). -/
def step (s : State) : Host.Outcome State Fault Refusal := runEvent (nextEvent s).1 (nextEvent s).2

/-- The state whose next step fetches and runs the table's word `w` (bits above `nbits` are 0). It stores the word's two
bytes at pc and pc + 1 and sees to it that the next event is a Step in RUNNING; nothing else changes. A pc from which
nothing can be fetched (pc + 1 >= 4096) leaves it without effect on the fetch. -/
def State.withFetchWord (s : State) (nbits w : Nat) : State := placeWordAtPc (tableWord nbits w) s

end Sys2Proof.Machine
end

