-- ==== Sys2Proof/Machine/Text.lean ====
section
/-! DEFINITION. The assembler text of instructions and of data, its reading, and the disassembler's line (30_encoding.md rules
R97, R118 to R122). A text is a mnemonic and operands; one table gives an instruction its parts, one gives parts their
instruction back. No text is state: the disassembler "never mutates state" (R118). -/

namespace Sys2Proof.Machine

/-! ## The pieces of a text (R119, R121) -/

/-- The mnemonics of R119, and `DW`, "the only non-instruction the text has" (R122). -/
inductive Mnemonic where
  | cls | ret | scd | scu | scr | scl | exit | low | high | jp | call | se | sne | ld | add | or | and | xor | sub | shr
  | subn | shl | rnd | drw | skp | sknp | dw
  deriving DecidableEq, Repr

/-- The literal operand names of R119. -/
inductive OperandName where
  | i | atI | dt | st | k | f | hf | b | r
  deriving DecidableEq, Repr

/-- An operand as it is written (R119; `word` is that of `DW`, R121). -/
inductive Operand where
  | reg (x : Nibble)
  | addr (nnn : Addr12)
  | imm (kk : Byte)
  | nib (n : Nibble)
  | word (w : Word)
  | name (l : OperandName)
  deriving DecidableEq, Repr

/-- What one line of assembler text says: an instruction, or a word of data (R121). -/
inductive AsmItem where
  | instr (i : Instr)
  | data (w : Word)
  deriving DecidableEq, Repr

/-! ## Writing -/

/-- A hex digit, upper case (R118, R119). -/
def hexChar (d : Nibble) : Char :=
  ['0', '1', '2', '3', '4', '5', '6', '7', '8', '9', 'A', 'B', 'C', 'D', 'E', 'F'].getD d.toNat '0'

/-- Two hex digits of a byte. -/
def hexChars8 (b : Byte) : List Char := [hexChar (b.extractLsb' 4 4), hexChar (b.extractLsb' 0 4)]

/-- Three hex digits of an address. -/
def hexChars12 (a : Addr12) : List Char :=
  [hexChar (a.extractLsb' 8 4), hexChar (a.extractLsb' 4 4), hexChar (a.extractLsb' 0 4)]

/-- Four hex digits of a word (R118). -/
def hexChars16 (w : Word) : List Char :=
  [hexChar (w.extractLsb' 12 4), hexChar (w.extractLsb' 8 4), hexChar (w.extractLsb' 4 4), hexChar (w.extractLsb' 0 4)]

/-- A nibble operand in decimal (R119). -/
def decChars (n : Nibble) : List Char := if n.toNat < 10 then [hexChar n] else ['1', hexChar (n - 10#4)]

/-- A mnemonic's spelling (R119; `DW`, R121). -/
def Mnemonic.chars : Mnemonic → List Char
  | .cls => ['C', 'L', 'S']
  | .ret => ['R', 'E', 'T']
  | .scd => ['S', 'C', 'D']
  | .scu => ['S', 'C', 'U']
  | .scr => ['S', 'C', 'R']
  | .scl => ['S', 'C', 'L']
  | .exit => ['E', 'X', 'I', 'T']
  | .low => ['L', 'O', 'W']
  | .high => ['H', 'I', 'G', 'H']
  | .jp => ['J', 'P']
  | .call => ['C', 'A', 'L', 'L']
  | .se => ['S', 'E']
  | .sne => ['S', 'N', 'E']
  | .ld => ['L', 'D']
  | .add => ['A', 'D', 'D']
  | .or => ['O', 'R']
  | .and => ['A', 'N', 'D']
  | .xor => ['X', 'O', 'R']
  | .sub => ['S', 'U', 'B']
  | .shr => ['S', 'H', 'R']
  | .subn => ['S', 'U', 'B', 'N']
  | .shl => ['S', 'H', 'L']
  | .rnd => ['R', 'N', 'D']
  | .drw => ['D', 'R', 'W']
  | .skp => ['S', 'K', 'P']
  | .sknp => ['S', 'K', 'N', 'P']
  | .dw => ['D', 'W']

/-- A literal operand name's spelling (R119). -/
def OperandName.chars : OperandName → List Char
  | .i => ['I']
  | .atI => ['[', 'I', ']']
  | .dt => ['D', 'T']
  | .st => ['S', 'T']
  | .k => ['K']
  | .f => ['F']
  | .hf => ['H', 'F']
  | .b => ['B']
  | .r => ['R']

/-- An operand's spelling (R119, R121). -/
def Operand.chars : Operand → List Char
  | .reg x => ['V', hexChar x]
  | .addr nnn => '0' :: 'x' :: hexChars12 nnn
  | .imm kk => '0' :: 'x' :: hexChars8 kk
  | .nib n => decChars n
  | .word w => '0' :: 'x' :: hexChars16 w
  | .name l => l.chars

/-- The table of R119: each instruction's mnemonic and operands. -/
def instrParts : Instr → Mnemonic × List Operand
  | .cls => (.cls, [])
  | .ret => (.ret, [])
  | .scr => (.scr, [])
  | .scl => (.scl, [])
  | .exit => (.exit, [])
  | .low => (.low, [])
  | .high => (.high, [])
  | .skp x => (.skp, [.reg x])
  | .sknp x => (.sknp, [.reg x])
  | .ldVxDt x => (.ld, [.reg x, .name .dt])
  | .ldVxK x => (.ld, [.reg x, .name .k])
  | .ldDtVx x => (.ld, [.name .dt, .reg x])
  | .ldStVx x => (.ld, [.name .st, .reg x])
  | .addIVx x => (.add, [.name .i, .reg x])
  | .ldFVx x => (.ld, [.name .f, .reg x])
  | .ldHfVx x => (.ld, [.name .hf, .reg x])
  | .ldBVx x => (.ld, [.name .b, .reg x])
  | .ldMemVx x => (.ld, [.name .atI, .reg x])
  | .ldVxMem x => (.ld, [.reg x, .name .atI])
  | .ldRVx x => (.ld, [.name .r, .reg x])
  | .ldVxR x => (.ld, [.reg x, .name .r])
  | .seVxVy x y => (.se, [.reg x, .reg y])
  | .ldVxVy x y => (.ld, [.reg x, .reg y])
  | .orVxVy x y => (.or, [.reg x, .reg y])
  | .andVxVy x y => (.and, [.reg x, .reg y])
  | .xorVxVy x y => (.xor, [.reg x, .reg y])
  | .addVxVy x y => (.add, [.reg x, .reg y])
  | .subVxVy x y => (.sub, [.reg x, .reg y])
  | .shrVxVy x y => (.shr, [.reg x, .reg y])
  | .subnVxVy x y => (.subn, [.reg x, .reg y])
  | .shlVxVy x y => (.shl, [.reg x, .reg y])
  | .sneVxVy x y => (.sne, [.reg x, .reg y])
  | .jp nnn => (.jp, [.addr nnn])
  | .call nnn => (.call, [.addr nnn])
  | .seVxKk x kk => (.se, [.reg x, .imm kk])
  | .sneVxKk x kk => (.sne, [.reg x, .imm kk])
  | .ldVxKk x kk => (.ld, [.reg x, .imm kk])
  | .addVxKk x kk => (.add, [.reg x, .imm kk])
  | .ldINnn nnn => (.ld, [.name .i, .addr nnn])
  | .jpV0 nnn => (.jp, [.reg 0x0#4, .addr nnn])
  | .rnd x kk => (.rnd, [.reg x, .imm kk])
  | .drw x y n => (.drw, [.reg x, .reg y, .nib n])
  | .scd n => (.scd, [.nib n])
  | .scu n => (.scu, [.nib n])

/-- The parts of a line: an instruction's, or `DW` and the raw word (R121). -/
def itemParts : AsmItem → Mnemonic × List Operand
  | .instr i => instrParts i
  | .data w => (.dw, [.word w])

/-- The operands of a text: a space before the first, a comma and a space between two (R119). -/
def operandsChars : List Operand → List Char
  | [] => []
  | o :: os => ' ' :: o.chars ++ os.flatMap fun p => ',' :: ' ' :: p.chars

/-- A line's text. -/
def itemText (a : AsmItem) : String :=
  String.ofList ((itemParts a).1.chars ++ operandsChars (itemParts a).2)

/-- The assembler text of an instruction (R119). -/
def instrText (i : Instr) : String := itemText (.instr i)

/-- Four hex digits of a word (R118). -/
def hexWord (w : Word) : String := String.ofList (hexChars16 w)

/-- What the disassembler makes of a word: the instruction it classifies to, or data (R97, R120, R121). -/
def wordItem (keyScu : Word) (w : Word) : AsmItem :=
  match decodeWord keyScu w with
  | .ok i => .instr i
  | .error _ => .data w

/-- The text of a word: its instruction's, or the literal-data marker with the raw word (R97, R121; C6). -/
def wordText (keyScu : Word) (w : Word) : String := itemText (wordItem keyScu w)

/-- One line: file offset, raw word, text (R118). DESIGN CHOICE, safe, log entry 35: the offset is written modulo 65536,
for R118 gives it 4 hex digits and does not say what is written for a file offset above 0xFFFF. -/
def disasmLine (keyScu : Word) (offset : Nat) (w : Word) : String :=
  hexWord (BitVec.ofNat 16 offset) ++ ": " ++ hexWord w ++ "  " ++ wordText keyScu w

/-- The disassembler from a file offset on: one line per instruction word (R118). DESIGN CHOICE, safe, log entry 29: a
trailing odd byte gets no line, for the spec leaves open what is written for it (N14). -/
def disasmFrom (keyScu : Word) : Nat → List Byte → List String
  | offset, hi :: lo :: rest => disasmLine keyScu offset (wordOfBytes hi lo) :: disasmFrom keyScu (offset + 2) rest
  | _, [_] => []
  | _, [] => []

/-- The disassembler on a program image, from offset 0 (R118). -/
def disassemble (keyScu : Word) (program : List Byte) : List String := disasmFrom keyScu 0 program

/-! ## Reading (R119 to R122). DESIGN CHOICE, safe, log entry 36: only the spelling R119 and R121 give is read, with one
space after the mnemonic and after each comma; every other text is refused. -/

/-- The value of an upper-case hex digit. -/
def readHex (c : Char) : Option Nibble := ((List.range 16).map (BitVec.ofNat 4)).find? fun d => hexChar d == c

/-- A list of characters as hex digits. -/
def readHexes : List Char → Option (List Nibble)
  | [] => some []
  | c :: cs => (readHex c).bind fun d => (readHexes cs).map (d :: ·)

/-- `V` and one hex digit. -/
def readReg : List Char → Option Operand
  | ['V', c] => (readHex c).map .reg
  | _ => none

/-- The operand that `0x` and these digits write: a byte, an address or a word, told apart by the number of digits. -/
def operandOfHex : List Nibble → Option Operand
  | [a, b] => some (.imm (a ++ b))
  | [a, b, c] => some (.addr (a ++ b ++ c))
  | [a, b, c, d] => some (.word (wordOfNibbles a b c d))
  | _ => none

/-- `0x` and hex digits. -/
def readNumber : List Char → Option Operand
  | '0' :: 'x' :: cs => (readHexes cs).bind operandOfHex
  | _ => none

/-- Every literal operand name. -/
def operandNames : List OperandName := [.i, .atI, .dt, .st, .k, .f, .hf, .b, .r]

/-- A literal operand name. -/
def readName (cs : List Char) : Option Operand := (operandNames.find? fun l => l.chars == cs).map .name

/-- A nibble in decimal, 0 to 15, without leading zeros. -/
def readNib (cs : List Char) : Option Operand :=
  (((List.range 16).map (BitVec.ofNat 4)).find? fun n => decChars n == cs).map .nib

/-- One operand. -/
def readOperand (cs : List Char) : Option Operand :=
  (readReg cs).orElse fun _ => (readNumber cs).orElse fun _ => (readName cs).orElse fun _ => readNib cs

/-- Every mnemonic. -/
def mnemonics : List Mnemonic :=
  [.cls, .ret, .scd, .scu, .scr, .scl, .exit, .low, .high, .jp, .call, .se, .sne, .ld, .add] ++
  [.or, .and, .xor, .sub, .shr, .subn, .shl, .rnd, .drw, .skp, .sknp, .dw]

/-- A mnemonic. -/
def readMnemonic (cs : List Char) : Option Mnemonic := mnemonics.find? fun m => m.chars == cs

/-- The characters up to a separator, and those after it, `none` when the separator does not occur. -/
def cutAt (sep : Char) : List Char → List Char × Option (List Char)
  | [] => ([], none)
  | c :: cs => if c = sep then ([], some cs) else (c :: (cutAt sep cs).1, (cutAt sep cs).2)

/-- Operands written one after the other, in at most `fuel` operands; each but the first has a space before it. -/
def readOperands : Nat → List Char → Option (List Operand)
  | 0, _ => none
  | fuel + 1, cs =>
    (readOperand (cutAt ',' cs).1).bind fun o =>
      match (cutAt ',' cs).2 with
      | none => some [o]
      | some (' ' :: rest) => (readOperands fuel rest).map (o :: ·)
      | some _ => none

/-- A text as a mnemonic and its operands; no text has more than three. -/
def readParts (cs : List Char) : Option (Mnemonic × List Operand) :=
  (readMnemonic (cutAt ' ' cs).1).bind fun m =>
    match (cutAt ' ' cs).2 with
    | none => some (m, [])
    | some rest => (readOperands 3 rest).map (m, ·)

/-- R119's table read the other way: what a mnemonic and its operands say. -/
def itemOf : Mnemonic → List Operand → Option AsmItem
  | .cls, [] => some (.instr .cls)
  | .ret, [] => some (.instr .ret)
  | .scr, [] => some (.instr .scr)
  | .scl, [] => some (.instr .scl)
  | .exit, [] => some (.instr .exit)
  | .low, [] => some (.instr .low)
  | .high, [] => some (.instr .high)
  | .skp, [.reg x] => some (.instr (.skp x))
  | .sknp, [.reg x] => some (.instr (.sknp x))
  | .ld, [.reg x, .name .dt] => some (.instr (.ldVxDt x))
  | .ld, [.reg x, .name .k] => some (.instr (.ldVxK x))
  | .ld, [.name .dt, .reg x] => some (.instr (.ldDtVx x))
  | .ld, [.name .st, .reg x] => some (.instr (.ldStVx x))
  | .add, [.name .i, .reg x] => some (.instr (.addIVx x))
  | .ld, [.name .f, .reg x] => some (.instr (.ldFVx x))
  | .ld, [.name .hf, .reg x] => some (.instr (.ldHfVx x))
  | .ld, [.name .b, .reg x] => some (.instr (.ldBVx x))
  | .ld, [.name .atI, .reg x] => some (.instr (.ldMemVx x))
  | .ld, [.reg x, .name .atI] => some (.instr (.ldVxMem x))
  | .ld, [.name .r, .reg x] => some (.instr (.ldRVx x))
  | .ld, [.reg x, .name .r] => some (.instr (.ldVxR x))
  | .se, [.reg x, .reg y] => some (.instr (.seVxVy x y))
  | .ld, [.reg x, .reg y] => some (.instr (.ldVxVy x y))
  | .or, [.reg x, .reg y] => some (.instr (.orVxVy x y))
  | .and, [.reg x, .reg y] => some (.instr (.andVxVy x y))
  | .xor, [.reg x, .reg y] => some (.instr (.xorVxVy x y))
  | .add, [.reg x, .reg y] => some (.instr (.addVxVy x y))
  | .sub, [.reg x, .reg y] => some (.instr (.subVxVy x y))
  | .shr, [.reg x, .reg y] => some (.instr (.shrVxVy x y))
  | .subn, [.reg x, .reg y] => some (.instr (.subnVxVy x y))
  | .shl, [.reg x, .reg y] => some (.instr (.shlVxVy x y))
  | .sne, [.reg x, .reg y] => some (.instr (.sneVxVy x y))
  | .jp, [.addr nnn] => some (.instr (.jp nnn))
  | .call, [.addr nnn] => some (.instr (.call nnn))
  | .se, [.reg x, .imm kk] => some (.instr (.seVxKk x kk))
  | .sne, [.reg x, .imm kk] => some (.instr (.sneVxKk x kk))
  | .ld, [.reg x, .imm kk] => some (.instr (.ldVxKk x kk))
  | .add, [.reg x, .imm kk] => some (.instr (.addVxKk x kk))
  | .ld, [.name .i, .addr nnn] => some (.instr (.ldINnn nnn))
  | .jp, [.reg x, .addr nnn] => if x = 0x0#4 then some (.instr (.jpV0 nnn)) else none
  | .rnd, [.reg x, .imm kk] => some (.instr (.rnd x kk))
  | .drw, [.reg x, .reg y, .nib n] => some (.instr (.drw x y n))
  | .scd, [.nib n] => some (.instr (.scd n))
  | .scu, [.nib n] => some (.instr (.scu n))
  | .dw, [.word w] => some (.data w)
  | _, _ => none

/-- What a line of text says, if it is one. -/
def readText (text : String) : Option AsmItem := (readParts text.toList).bind fun p => itemOf p.1 p.2

/-! ## Assembling -/

/-- The bytes an item assembles to: an instruction's canonical word (R120) or "the two bytes of the word", high byte first
(R121). -/
def itemBytes (keyScu : Word) : AsmItem → List Byte
  | .instr i => encodeBytes keyScu i
  | .data w => [highByte w, lowByte w]

/-- The assembler on one line of text: its two bytes, or `none` for a text that is no line. -/
def assemble (keyScu : Word) (text : String) : Option (List Byte) := (readText text).map (itemBytes keyScu)

/-- What assembling the text of a word gives (R120, R121). -/
def reassemble (keyScu : Word) (w : Word) : Option (List Byte) := assemble keyScu (wordText keyScu w)

end Sys2Proof.Machine
end

