-- ==== Sys2Proof/Safety.lean ====
section
/-! DEFINITION. The terms claims use: the shape every event keeps, a run without errors, which registers an instruction may
write, which pixels a sprite lights, and R119's table of assembler text, each written from the rules and not from the meanings. -/

namespace Sys2Proof.Machine

/-- The framebuffer has the size of the mode and holds only 0x00 and 0xFF (R38, R39). -/
abbrev State.FbOk (s : State) : Prop := fbWf s.mode s.fb = true

/-- Memory is in canonical form (20_memory.md R60). -/
abbrev State.MemOk (s : State) : Prop := memWf s.cfg.fontRom s.mem = true

/-- The call stack is within STACK_DEPTH (R28). -/
abbrev State.StackOk (s : State) : Prop := ∀ d ∈ s.cfg.stackDepth, s.stk.length ≤ d

/-- Every stacked return address is one at which a word can be fetched (R132: "a is at most 0x0FFE"). -/
abbrev State.ReturnsOk (s : State) : Prop := ∀ a ∈ s.stk, a.toNat + 1 < 4096

/-- No error so far: CF and HF are 0 (R272; 93_implementation_defined.md U1, U2). -/
def State.errorFree (s : State) : Bool := !s.cf && !s.hf

/-- The next event is Step: it is scheduled first, or nothing is scheduled (R16; log entry 2). -/
def State.StepNext (s : State) (s' : State) : Prop :=
  (s.schedule = [] ∧ s' = s) ∨ (∃ rest, s.schedule = .step :: rest ∧ s' = { s with schedule := rest })

/-- The next event is a Reset. -/
def State.ResetNext (s : State) : Prop := ∃ cfg program rest, s.schedule = .reset cfg program :: rest

/-- The next state of a HandlerFault with this cause and info (R264). -/
def Faulted (s : State) (cause : Cause) (info : Nat) : State :=
  { s with hf := true, reports := s.reports ++ [⟨cause, info⟩], pc := s.pc + 2#16 }

/-- `t` is `s` but for the general registers and pc; memory reads the same byte by byte. -/
def SameButRegs (s t : State) : Prop :=
  t = { s with v := t.v, pc := s.pc + 2#16 } ∧ ∀ a, t.byteAt a = s.byteAt a

/-- Whether the spec lets the instruction write register `r`: as a destination (R22) or as the flag VF (R29). -/
def mayWriteReg (i : Instr) (r : Nibble) : Bool :=
  match i with
  | .ldVxDt x => r == x
  | .ldVxMem x => decide (r.toNat ≤ x.toNat)
  | .ldVxVy x _ => r == x
  | .orVxVy x _ => r == x
  | .andVxVy x _ => r == x
  | .xorVxVy x _ => r == x
  | .addVxVy x _ => r == x || r == 0xF#4
  | .subVxVy x _ => r == x || r == 0xF#4
  | .shrVxVy x _ => r == x || r == 0xF#4
  | .subnVxVy x _ => r == x || r == 0xF#4
  | .shlVxVy x _ => r == x || r == 0xF#4
  | .ldVxKk x _ => r == x
  | .addVxKk x _ => r == x
  | .rnd x _ => r == x
  | .drw _ _ _ => r == 0xF#4
  | _ => false

/-- Whether a 1 bit of the sprite DRW Vx,Vy,n draws in `s` lands on column `px`, row `py` of the screen (R226, R227): bit
7 - c of the byte at I + r, for r < n and c < 8, lands on (V[x] + c, V[y] + r), each coordinate reduced modulo the screen
size when Q_WRAP = 1. -/
def SpriteLights (s : State) (x y n : Nibble) (px py : Nat) : Prop :=
  px < s.mode.width ∧ py < s.mode.height ∧
  ∃ r c, r < n.toNat ∧ c < 8 ∧ (s.byteAt (s.ireg.toNat + r)).getLsbD (7 - c) = true ∧
    (if s.cfg.qWrap then
      px = ((s.reg x).toNat + c) % s.mode.width ∧ py = ((s.reg y).toNat + r) % s.mode.height
    else px = (s.reg x).toNat + c ∧ py = (s.reg y).toNat + r)

/-! ## Assembler text as R119 prints it -/

/-- One upper-case hex digit. -/
def digitText (d : Nibble) : String :=
  ["0", "1", "2", "3", "4", "5", "6", "7", "8", "9", "A", "B", "C", "D", "E", "F"].getD d.toNat ""

/-- A nibble in decimal. -/
def decimalText (n : Nibble) : String :=
  ["0", "1", "2", "3", "4", "5", "6", "7", "8", "9", "10", "11", "12", "13", "14", "15"].getD n.toNat ""

/-- `0x` and two hex digits. -/
def byteText (kk : Byte) : String := "0x" ++ digitText (kk.extractLsb' 4 4) ++ digitText (kk.extractLsb' 0 4)

/-- `0x` and three hex digits. -/
def addrText (nnn : Addr12) : String :=
  "0x" ++ digitText (nnn.extractLsb' 8 4) ++ digitText (nnn.extractLsb' 4 4) ++ digitText (nnn.extractLsb' 0 4)

/-- The literal-data marker of a word: `DW 0xWWWW` (R121). -/
def markerText (w : Word) : String :=
  "DW 0x" ++ digitText (w.extractLsb' 12 4) ++ digitText (w.extractLsb' 8 4) ++ digitText (w.extractLsb' 4 4) ++
    digitText (w.extractLsb' 0 4)

/-- The column "assembler text" of R119's table, row by row, with the operands spelled as R119 says. -/
def tableText : Instr → String
  | .cls => "CLS"
  | .ret => "RET"
  | .scr => "SCR"
  | .scl => "SCL"
  | .exit => "EXIT"
  | .low => "LOW"
  | .high => "HIGH"
  | .skp x => "SKP V" ++ digitText x
  | .sknp x => "SKNP V" ++ digitText x
  | .ldVxDt x => "LD V" ++ digitText x ++ ", DT"
  | .ldVxK x => "LD V" ++ digitText x ++ ", K"
  | .ldDtVx x => "LD DT, V" ++ digitText x
  | .ldStVx x => "LD ST, V" ++ digitText x
  | .addIVx x => "ADD I, V" ++ digitText x
  | .ldFVx x => "LD F, V" ++ digitText x
  | .ldHfVx x => "LD HF, V" ++ digitText x
  | .ldBVx x => "LD B, V" ++ digitText x
  | .ldMemVx x => "LD [I], V" ++ digitText x
  | .ldVxMem x => "LD V" ++ digitText x ++ ", [I]"
  | .ldRVx x => "LD R, V" ++ digitText x
  | .ldVxR x => "LD V" ++ digitText x ++ ", R"
  | .seVxVy x y => "SE V" ++ digitText x ++ ", V" ++ digitText y
  | .ldVxVy x y => "LD V" ++ digitText x ++ ", V" ++ digitText y
  | .orVxVy x y => "OR V" ++ digitText x ++ ", V" ++ digitText y
  | .andVxVy x y => "AND V" ++ digitText x ++ ", V" ++ digitText y
  | .xorVxVy x y => "XOR V" ++ digitText x ++ ", V" ++ digitText y
  | .addVxVy x y => "ADD V" ++ digitText x ++ ", V" ++ digitText y
  | .subVxVy x y => "SUB V" ++ digitText x ++ ", V" ++ digitText y
  | .shrVxVy x y => "SHR V" ++ digitText x ++ ", V" ++ digitText y
  | .subnVxVy x y => "SUBN V" ++ digitText x ++ ", V" ++ digitText y
  | .shlVxVy x y => "SHL V" ++ digitText x ++ ", V" ++ digitText y
  | .sneVxVy x y => "SNE V" ++ digitText x ++ ", V" ++ digitText y
  | .jp nnn => "JP " ++ addrText nnn
  | .call nnn => "CALL " ++ addrText nnn
  | .seVxKk x kk => "SE V" ++ digitText x ++ ", " ++ byteText kk
  | .sneVxKk x kk => "SNE V" ++ digitText x ++ ", " ++ byteText kk
  | .ldVxKk x kk => "LD V" ++ digitText x ++ ", " ++ byteText kk
  | .addVxKk x kk => "ADD V" ++ digitText x ++ ", " ++ byteText kk
  | .ldINnn nnn => "LD I, " ++ addrText nnn
  | .jpV0 nnn => "JP V0, " ++ addrText nnn
  | .rnd x kk => "RND V" ++ digitText x ++ ", " ++ byteText kk
  | .drw x y n => "DRW V" ++ digitText x ++ ", V" ++ digitText y ++ ", " ++ decimalText n
  | .scd n => "SCD " ++ decimalText n
  | .scu n => "SCU " ++ decimalText n

end Sys2Proof.Machine
end

