-- ==== Sys2Proof/Certificates/Slice0/Obligations.lean ====
section
/-! DEFINITION. The statements for the provers, in the order of OBLIGATIONS.json. Each docstring names the rules it
formalises; where a clause rests on a decision of the spec (92_eei_decisions.md) or on a choice of the model, it names it. -/

open Sys2Proof Sys2Proof.Machine

/-! ## Encoding -/

/-- R111, R94, R96: the word and the bytes of a well-formed instruction decode to it, its classification is its own family
and id, and in general a word that a family's set holds and no earlier family takes classifies to that family and key. -/
def Obligations.DecodeEncodeRoundTrip : Prop :=
  (∀ (k : Word) (i : Instr) (rest : List Byte), keyScuOk k = true → i.wellFormed k = true →
    decodeWord k (encode k i) = .ok i ∧ decode k (encodeBytes k i ++ rest) = .ok (i, rest) ∧
    classify k (encode k i) = some (i.family, i.id k)) ∧
  (∀ (k : Word) (f : Family) (w : Word), w &&& f.mask ∈ knownSet k f →
    (∀ g : Family, g.number < f.number → w &&& g.mask ∉ knownSet k g) → classify k w = some (f, w &&& f.mask))

/-- R94, R96, R97: the decoder that takes the table's first matching row and the classifier that asks four sets in order
agree on every word. -/
def Obligations.DecoderAgreesWithClassifier : Prop :=
  ∀ (k w : Word),
    (classify k w = none ↔ decodeWord k w = .error (.unclassified w)) ∧
    (∀ i, decodeWord k w = .ok i → classify k w = some (i.family, i.id k))

/-- R92, R105, R120: encoding what a word decodes to gives the word back with 0 in its don't-care bits, so every operand is
read from its own bits. -/
def Obligations.EncodeDecodeCanonical : Prop :=
  ∀ (k w : Word) (i : Instr), keyScuOk k = true → decodeWord k w = .ok i →
    encode k i = w &&& significantBits i.family (i.id k)

/-- R107: the unclassified words, with the default KEY_SCU (D4): op nibble 0, 5, 8, 9, E or F, no S1 or S2 pattern, y nibble
neither B nor C. -/
def Obligations.UnclassifiedWordsExactly : Prop :=
  ∀ w : Word, classify defaultKeyScu w = none ↔
    w.extractLsb' 12 4 ∈ [0x0#4, 0x5#4, 0x8#4, 0x9#4, 0xE#4, 0xF#4] ∧
    w &&& 0xF0FF#16 ∉ [0x00E0#16, 0x00EE#16, 0x00FB#16, 0x00FC#16, 0x00FD#16, 0x00FE#16, 0x00FF#16, 0xE09E#16, 0xE0A1#16,
      0xF007#16, 0xF00A#16, 0xF015#16, 0xF018#16, 0xF01E#16, 0xF029#16, 0xF030#16, 0xF033#16, 0xF055#16, 0xF065#16,
      0xF075#16, 0xF085#16] ∧
    w &&& 0xF00F#16 ∉ [0x5000#16, 0x8000#16, 0x8001#16, 0x8002#16, 0x8003#16, 0x8004#16, 0x8005#16, 0x8006#16, 0x8007#16,
      0x800E#16, 0x9000#16] ∧
    w.extractLsb' 4 4 ≠ 0xB#4 ∧ w.extractLsb' 4 4 ≠ 0xC#4

/-- R106: a word that families 1 to 3 reject is SCD when its y nibble is C and SCU when it is B (default KEY_SCU, D4),
whatever its op and x nibbles. -/
def Obligations.FallThroughWordsScroll : Prop :=
  ∀ w : Word, w &&& 0xF0FF#16 ∉ knownSet defaultKeyScu .f1 → w &&& 0xF00F#16 ∉ knownSet defaultKeyScu .f2 →
    w.extractLsb' 12 4 ∈ [0x0#4, 0x5#4, 0x8#4, 0x9#4, 0xE#4, 0xF#4] →
    (w.extractLsb' 4 4 = 0xC#4 → decodeWord defaultKeyScu w = .ok (.scd (w.extractLsb' 0 4))) ∧
    (w.extractLsb' 4 4 = 0xB#4 → decodeWord defaultKeyScu w = .ok (.scu (w.extractLsb' 0 4)))

/-- R112: the eight bit patterns the source prints. The last clause, one word of family 4 (R104), is not among them: it rests
on decision D2, which log entry 11 marks PRESUMED. -/
def Obligations.PrintedPatternsDecode : Prop :=
  decodeTableWord 16 0x8AB4 = some (.addVxVy 0xA#4 0xB#4) ∧ decodeTableWord 16 0x8AB5 = some (.subVxVy 0xA#4 0xB#4) ∧
  decodeTableWord 16 0x00E0 = some .cls ∧ decodeTableWord 16 0x1200 = some (.jp 0x200#12) ∧
  decodeTableWord 16 0x600A = some (.ldVxKk 0x0#4 0x0A#8) ∧ decodeTableWord 16 0x7005 = some (.addVxKk 0x0#4 0x05#8) ∧
  decodeTableWord 16 0xA300 = some (.ldINnn 0x300#12) ∧ decodeTableWord 16 0xD005 = some (.drw 0x0#4 0x0#4 0x5#4) ∧
  decodeTableWord 16 0x00C5 = some (.scd 0x5#4)

/-- R97, R119, R120, R121 (spelling by decision D32; the reader's strictness is log entry 36): an instruction's text is the
row of R119's table and an unclassified word's is its data marker; the assembler reads every such text back, so equal texts
come from equal instructions or equal words and no instruction's text is a data marker; the text of a word that decodes
reassembles to the word with 0 in its don't-care bits, and the marker of ANY word to the word's two bytes, high byte first. -/
def Obligations.DisassemblyReassembles : Prop :=
  (∀ i : Instr, instrText i = tableText i ∧ readText (instrText i) = some (.instr i)) ∧
  (∀ i j : Instr, instrText i = instrText j → i = j) ∧
  (∀ w : Word, itemText (.data w) = markerText w ∧ readText (markerText w) = some (.data w)) ∧
  (∀ v w : Word, markerText v = markerText w → v = w) ∧ (∀ v w : Word, hexWord v = hexWord w → v = w) ∧
  (∀ (i : Instr) (w : Word), instrText i ≠ markerText w) ∧
  (∀ (k w : Word) (i : Instr), keyScuOk k = true → decodeWord k w = .ok i →
    wordText k w = instrText i ∧
    reassemble k w = some [highByte (w &&& significantBits i.family (i.id k)),
      lowByte (w &&& significantBits i.family (i.id k))]) ∧
  (∀ (k w : Word), classify k w = none → wordText k w = markerText w ∧ reassemble k w = some [highByte w, lowByte w]) ∧
  (∀ (k w : Word), assemble k (markerText w) = some [highByte w, lowByte w])

/-! ## Reset -/

/-- R300, R301, R75 with decisions D7, D31, D36: a Reset event, in whatever state, leaves every piece of state at its reset
value, the font in 0x000 to 0x0FF, and the program, cut at 0xE00 bytes, at 0x200 with zeros after it. The model's own
reports, draws and schedule go on (log entry 30). -/
def Obligations.ResetLoadsProgram : Prop :=
  ∀ (s : State) (cfg : Config) (program : List Byte) (rest : List Event), s.schedule = .reset cfg program :: rest →
    ∃ t, step s = .next t ∧
      t.pc = 0x0200#16 ∧ (∀ r, t.reg r = 0x00#8) ∧ t.ireg = 0x0000#16 ∧ t.stk = [] ∧ t.dt = 0x00#8 ∧ t.st = 0x00#8 ∧
      t.key = 0x0000#16 ∧ t.mode = .low ∧ t.FbOk ∧ (∀ r c, t.pixel r c = 0x00#8) ∧ t.dirty = false ∧ t.run = .running ∧
      t.wreg = 0x0#4 ∧ t.cf = false ∧ t.hf = false ∧ t.cfg = cfg ∧
      (∀ a, a < 0x100 → t.byteAt a = cfg.fontRom.getD a 0x00#8) ∧
      (∀ a, 0x100 ≤ a → a < 0x200 → t.byteAt a = 0x00#8) ∧
      (∀ j, j < min program.length 0xE00 → t.byteAt (0x200 + j) = program.getD j 0x00#8) ∧
      (∀ a, 0x200 + min program.length 0xE00 ≤ a → a < 4096 → t.byteAt a = 0x00#8) ∧
      t.reports = s.reports ∧ t.draws = s.draws ∧ t.schedule = rest

/-- R46, R47: what the source itself states of reset (PC, RUN, the zero fill of the program region with no program), and
the invariants below hold there. -/
def Obligations.ResetStateIsWellFormed : Prop :=
  State.reset.pc = 0x0200#16 ∧ State.reset.run = .running ∧ (∀ a, 0x200 ≤ a → a < 4096 → State.reset.byteAt a = 0x00#8) ∧
    State.reset.FbOk ∧ State.reset.MemOk ∧ State.reset.StackOk ∧ State.reset.ReturnsOk ∧ State.reset.errorFree = true ∧
    State.reset.cfg.wellFormed = true

/-! ## Steps -/

/-- R276, R64, R65: in RUNNING, with pc + 1 inside memory, a step runs the instruction that the two bytes at pc decode to,
the byte at pc first. Around exec the step only takes Step off the schedule where it stood there. -/
def Obligations.StepRunsDecodedInstruction : Prop :=
  ∀ (s s' : State) (i : Instr), s.StepNext s' → s.run = .running → s.pc.toNat + 1 < 4096 →
    decodeWord s.cfg.keyScu (s.byteAt s.pc.toNat ++ s.byteAt (s.pc.toNat + 1)) = .ok i → step s = exec i s'

/-- R262: an unclassified word sets CF, emits Report(1, word) and advances pc by 2; nothing else changes. -/
def Obligations.UnclassifiedWordAdvances : Prop :=
  ∀ (s s' : State), s.StepNext s' → s.run = .running → s.pc.toNat + 1 < 4096 →
    classify s.cfg.keyScu (s.byteAt s.pc.toNat ++ s.byteAt (s.pc.toNat + 1)) = none →
    Cause.classificationFailure.code = 1 ∧
    step s = .next { s' with
      cf := true, pc := s.pc + 2#16,
      reports := s.reports ++
        [⟨.classificationFailure, (s.byteAt s.pc.toNat ++ s.byteAt (s.pc.toNat + 1)).toNat⟩] }

/-- R64, R264 (decisions D10, D11): a fetch with pc + 1 >= 4096 raises FetchRange with info pc and nothing else. -/
def Obligations.FetchOutsideMemoryFaults : Prop :=
  ∀ (s s' : State), s.StepNext s' → s.run = .running → 4096 ≤ s.pc.toNat + 1 →
    step s = .next (Faulted s' .fetchRange s.pc.toNat)

/-- R260: no error is fatal: every step answers a next state, whatever the state. -/
def Obligations.EveryStepAnswersNext : Prop := ∀ s : State, ∃ t, step s = .next t

/-- R261, R264, R265 (decision D11): an instruction that emits a report or sets HF does nothing else but advance pc by 2,
and its cause is the one the table of R261 gives it. -/
def Obligations.HandlerFaultsArePrecise : Prop :=
  ∀ (i : Instr) (s t : State), exec i s = .next t → t.reports ≠ s.reports ∨ t.hf ≠ s.hf →
    ∃ cause info, t = Faulted s cause info ∧
      ((cause = .memRange ∧ info = max s.ireg.toNat 4096 ∧
          ((∃ x y n, i = .drw x y n) ∨ (∃ x, i = .ldBVx x) ∨ (∃ x, i = .ldMemVx x) ∨ ∃ x, i = .ldVxMem x)) ∨
        (cause = .stackOverflow ∧ info = s.stk.length ∧ ∃ nnn, i = .call nnn) ∨
        (cause = .stackUnderflow ∧ info = 0 ∧ i = .ret) ∨
        (cause = .keyIndex ∧ ∃ x, info = (s.reg x).toNat ∧ 15 < info ∧ (i = .skp x ∨ i = .sknp x)))

/-! ## Invariants that every step keeps -/

/-- R38, R39, R40: the framebuffer keeps the size of the mode and holds only 0x00 and 0xFF. -/
def Obligations.StepKeepsFramebufferShape : Prop := ∀ s t : State, s.FbOk → step s = .next t → t.FbOk

/-- The model's memory (log entry 12) keeps its canonical form, with no address of 4096 or above (R60). -/
def Obligations.StepKeepsMemoryCanonical : Prop := ∀ s t : State, s.MemOk → step s = .next t → t.MemOk

/-- R28 (decision D8): len(STK) never exceeds STACK_DEPTH. -/
def Obligations.StepKeepsStackBound : Prop := ∀ s t : State, s.StackOk → step s = .next t → t.StackOk

/-- R132, R131: every stacked return address stays one at which a word can be fetched, at most 0x0FFE. -/
def Obligations.StepKeepsReturnsFetchable : Prop := ∀ s t : State, s.ReturnsOk → step s = .next t → t.ReturnsOk

/-! ## Whole-machine rules -/

/-- R32, R279 (decision D30): HALTED is terminal: only Reset leaves it, and no Step, Tick or Shutdown acts in it. -/
def Obligations.HaltedIsTerminal : Prop :=
  ∀ s : State, s.run = .halted →
    (s.schedule = [] → step s = .next s) ∧
    (∀ e rest, s.schedule = e :: rest → e = .step ∨ e = .tick ∨ e = .shutdown →
      step s = .next { s with schedule := rest }) ∧
    (∀ t, step s = .next t → t.run ≠ .halted → s.ResetNext ∧ t.run = .running)

/-- R277, R282, R285: AWAITING_KEY is left only by a KeypadWrite with a fresh key, by Shutdown or by Reset; a Step changes
nothing. -/
def Obligations.AwaitingKeyHolds : Prop :=
  ∀ s : State, s.run = .awaitingKey →
    (∀ s', s.StepNext s' → step s = .next s') ∧
    (∀ t, step s = .next t → t.run ≠ .awaitingKey →
      s.ResetNext ∨ (∃ rest, s.schedule = .shutdown :: rest ∧ t.run = .halted) ∨
      (∃ snapshot rest k, s.schedule = .keypadWrite snapshot :: rest ∧ k < 16 ∧ snapshot.getLsbD k = true ∧
        s.key.getLsbD k = false ∧ t.run = .running))

/-- R32, R33, R277, R279: among the instructions only LD Vx,K enters AWAITING_KEY and writes WREG, and only EXIT enters
HALTED. -/
def Obligations.RunStateEntries : Prop :=
  ∀ (i : Instr) (s t : State), s.run = .running → exec i s = .next t →
    (t.run = .awaitingKey ↔ ∃ x, i = .ldVxK x) ∧ (t.run = .halted ↔ i = .exit) ∧
    (t.wreg ≠ s.wreg → i = .ldVxK t.wreg)

/-- R41 (decision D12): CF and HF are sticky: only Reset clears them. -/
def Obligations.ErrorBitsAreSticky : Prop :=
  ∀ s t : State, step s = .next t → ¬ s.ResetNext → (s.cf = true → t.cf = true) ∧ (s.hf = true → t.hf = true)

/-- R34, R301: only KeypadWrite, all bits at once, and Reset write KEY; only Reset samples the Config. -/
def Obligations.KeypadAndConfigWriters : Prop :=
  ∀ s t : State, step s = .next t → ¬ s.ResetNext →
    t.cfg = s.cfg ∧
    ((∀ snapshot rest, s.schedule ≠ .keypadWrite snapshot :: rest) → t.key = s.key) ∧
    (∀ snapshot rest, s.schedule = .keypadWrite snapshot :: rest → t.key = snapshot)

/-- R30 (decision D29): which instructions set DIRTY; none clears it. DRW sets it unless it faults. -/
def Obligations.DirtyFlagWriters : Prop :=
  ∀ (i : Instr) (s t : State), exec i s = .next t →
    match i with
    | .cls | .low | .high | .scd _ | .scu _ => t.dirty = true
    | .drw _ _ _ => t.dirty = (s.dirty || decide (t.reports = s.reports))
    | _ => t.dirty = s.dirty

/-- R22, R29: an instruction changes a general register only where the spec names it as a destination, or VF as the flag. -/
def Obligations.RegisterWriters : Prop :=
  ∀ (i : Instr) (s t : State) (r : Nibble), exec i s = .next t → t.reg r ≠ s.reg r → mayWriteReg i r = true

/-- R62, R71 (c): only LD B,Vx and LD [I],Vx change a memory byte, and no host event but Reset does. -/
def Obligations.MemoryWriters : Prop :=
  (∀ (i : Instr) (s t : State) (a : Nat), exec i s = .next t → t.byteAt a ≠ s.byteAt a →
    ∃ x, i = .ldBVx x ∨ i = .ldMemVx x) ∧
  (∀ (s t : State) (e : Event) (rest : List Event), s.schedule = e :: rest → e ≠ .step → ¬ s.ResetNext →
    step s = .next t → ∀ a, t.byteAt a = s.byteAt a)

/-- R26, R27, R31, R35, R36, R39: which instructions write I, STK, MODE, the framebuffer and the timers; RND alone draws;
none writes KEY, the Config or the schedule. -/
def Obligations.SpecialStateWriters : Prop :=
  ∀ (i : Instr) (s t : State), exec i s = .next t →
    (t.ireg ≠ s.ireg → (∃ nnn, i = .ldINnn nnn) ∨ (∃ x, i = .addIVx x) ∨ (∃ x, i = .ldFVx x) ∨ (∃ x, i = .ldHfVx x) ∨
      (s.cfg.qLdst = true ∧ ((∃ x, i = .ldMemVx x) ∨ ∃ x, i = .ldVxMem x))) ∧
    (t.stk ≠ s.stk → (∃ nnn, i = .call nnn) ∨ i = .ret) ∧
    (t.mode ≠ s.mode → i = .low ∨ i = .high) ∧
    (t.fb ≠ s.fb → i = .cls ∨ (∃ x y n, i = .drw x y n) ∨ (∃ n, i = .scd n) ∨ (∃ n, i = .scu n) ∨ i = .low ∨ i = .high) ∧
    (t.dt ≠ s.dt → ∃ x, i = .ldDtVx x) ∧ (t.st ≠ s.st → ∃ x, i = .ldStVx x) ∧
    (t.draws ≠ s.draws → ∃ x kk, i = .rnd x kk) ∧
    t.cf = s.cf ∧ t.key = s.key ∧ t.cfg = s.cfg ∧ t.schedule = s.schedule

/-! ## Host events -/

/-- R281 (decision D24): a Tick takes 1 off each active timer in RUNNING, and in AWAITING_KEY when TICK_IN_WAIT; an
inactive timer stays 0; nothing else changes. -/
def Obligations.TickDecrementsTimers : Prop :=
  ∀ (s : State) (rest : List Event), s.schedule = .tick :: rest →
    ((s.run = .running ∨ (s.run = .awaitingKey ∧ s.cfg.tickInWait = true)) →
      ∃ t, step s = .next t ∧ t = { s with dt := t.dt, st := t.st, schedule := rest } ∧
        t.dt.toNat = s.dt.toNat - 1 ∧ t.st.toNat = s.st.toNat - 1) ∧
    ((s.run = .halted ∨ (s.run = .awaitingKey ∧ s.cfg.tickInWait = false)) →
      step s = .next { s with schedule := rest })

/-- R282 (decision D23): KeypadWrite replaces KEY; in AWAITING_KEY the lowest fresh key is stored in V[WREG], pc advances
by 2 and RUN becomes RUNNING; without a fresh key the wait goes on. -/
def Obligations.KeypadWriteWakesOnFreshKey : Prop :=
  ∀ (s : State) (snapshot : BitVec 16) (rest : List Event), s.schedule = .keypadWrite snapshot :: rest →
    (s.run ≠ .awaitingKey → step s = .next { s with key := snapshot, schedule := rest }) ∧
    (s.run = .awaitingKey → (∀ k, k < 16 → snapshot.getLsbD k = true → s.key.getLsbD k = true) →
      step s = .next { s with key := snapshot, schedule := rest }) ∧
    (∀ k, s.run = .awaitingKey → k < 16 → snapshot.getLsbD k = true → s.key.getLsbD k = false →
      (∀ j, j < k → snapshot.getLsbD j = true → s.key.getLsbD j = true) →
      ∃ t, step s = .next t ∧ (t.reg s.wreg).toNat = k ∧ (∀ r, r ≠ s.wreg → t.reg r = s.reg r) ∧
        t = { s with v := t.v, key := snapshot, pc := s.pc + 2#16, run := .running, schedule := rest })

/-- R284, R285, R39 (decisions D26, D29, D37): Present clears DIRTY; Shutdown halts; the picture is W*H bytes row by row. Two
points are the model's own: a Present delivered with DIRTY = 0, when R284 does not enable it, is a step that changes nothing
but the schedule (log entry 32, DEDUCED); and what a Present hands over is the function `State.picture` of the state before
it, which no field records (log entry 25, DESIGN CHOICE). -/
def Obligations.PresentAndShutdown : Prop :=
  (∀ (s : State) (rest : List Event), s.schedule = .present :: rest → step s = .next { s with dirty := false, schedule := rest }) ∧
  (∀ (s : State) (rest : List Event), s.schedule = .shutdown :: rest →
    step s = .next { s with run := .halted, schedule := rest }) ∧
  (∀ s : State, s.FbOk → s.picture.2 = (s.mode.width, s.mode.height) ∧
    s.picture.1.length = s.mode.width * s.mode.height ∧
    ∀ r c, r < s.mode.height → c < s.mode.width → s.picture.1.getD (r * s.mode.width + c) 0x55#8 = s.pixel r c)

/-! ## Control flow -/

/-- R130: JP writes pc and nothing else. -/
def Obligations.JpWritesPc : Prop :=
  ∀ (k : Word) (nnn : Addr12) (s : State), encode k (.jp nnn) = 0x1#4 ++ nnn ∧
    exec (.jp nnn) s = .next { s with pc := 0x0#4 ++ nnn }

/-- R131 (the fault by decision D8): CALL pushes its own address and jumps; on a full stack it raises StackOverflow. -/
def Obligations.CallPushesOwnAddress : Prop :=
  ∀ (k : Word) (nnn : Addr12) (s : State), encode k (.call nnn) = 0x2#4 ++ nnn ∧
    (s.cfg.stackDepth ≠ some s.stk.length →
      exec (.call nnn) s = .next { s with stk := s.pc :: s.stk, pc := 0x0#4 ++ nnn }) ∧
    (s.cfg.stackDepth = some s.stk.length →
      exec (.call nnn) s = .next (Faulted s .stackOverflow s.stk.length))

/-- R132 (the fault by decision D8): RET pops and resumes at the popped address + 2; on an empty stack it raises
StackUnderflow. -/
def Obligations.RetResumesAfterCall : Prop :=
  ∀ (k : Word) (s : State), encode k .ret = 0x00EE#16 ∧
    (∀ a rest, s.stk = a :: rest → exec .ret s = .next { s with stk := rest, pc := a + 2#16 }) ∧
    (s.stk = [] → exec .ret s = .next (Faulted s .stackUnderflow 0))

/-- R131, R132, source example S13: a CALL and then a RET leave everything as it was but pc, which is past the CALL. -/
def Obligations.CallThenRet : Prop :=
  ∀ (nnn : Addr12) (s t : State), s.cfg.stackDepth ≠ some s.stk.length → exec (.call nnn) s = .next t →
    exec .ret t = .next { s with pc := s.pc + 2#16 }

/-- R133, R134: SE and SNE with an immediate skip one word or none and write pc alone. -/
def Obligations.SkipsOnImmediate : Prop :=
  ∀ (k : Word) (x : Nibble) (kk : Byte) (s : State),
    encode k (.seVxKk x kk) = 0x3#4 ++ x ++ kk ∧ encode k (.sneVxKk x kk) = 0x4#4 ++ x ++ kk ∧
    exec (.seVxKk x kk) s = .next { s with pc := if s.reg x = kk then s.pc + 4#16 else s.pc + 2#16 } ∧
    exec (.sneVxKk x kk) s = .next { s with pc := if s.reg x = kk then s.pc + 2#16 else s.pc + 4#16 }

/-- R135, R136: SE and SNE with two registers. -/
def Obligations.SkipsOnRegisters : Prop :=
  ∀ (k : Word) (x y : Nibble) (s : State),
    encode k (.seVxVy x y) = 0x5#4 ++ x ++ y ++ 0x0#4 ∧ encode k (.sneVxVy x y) = 0x9#4 ++ x ++ y ++ 0x0#4 ∧
    exec (.seVxVy x y) s = .next { s with pc := if s.reg x = s.reg y then s.pc + 4#16 else s.pc + 2#16 } ∧
    exec (.sneVxVy x y) s = .next { s with pc := if s.reg x = s.reg y then s.pc + 2#16 else s.pc + 4#16 }

/-- R137 (general knowledge of the spec's writer, D5): JP V0 jumps to nnn plus V0 and writes pc alone. -/
def Obligations.JpV0AddsOffset : Prop :=
  ∀ (nnn : Addr12) (s : State), ∃ target : Word,
    exec (.jpV0 nnn) s = .next { s with pc := target } ∧ target.toNat = nnn.toNat + (s.reg 0x0#4).toNat

/-! ## Arithmetic and logic -/

/-- R150 (general knowledge of the spec's writer, D5): LD Vx,Vy copies a register. -/
def Obligations.LdCopiesRegister : Prop :=
  ∀ (x y : Nibble) (s : State), ∃ t, exec (.ldVxVy x y) s = .next t ∧ SameButRegs s t ∧ t.reg x = s.reg y ∧
    ∀ r, r ≠ x → t.reg r = s.reg r

/-- R151, R152, R153 (VF unwritten by decision D15): OR, AND, XOR bit by bit; no other register changes, VF neither. -/
def Obligations.LogicIsBitwise : Prop :=
  ∀ (x y : Nibble) (s : State),
    (∃ t, exec (.orVxVy x y) s = .next t ∧ SameButRegs s t ∧ (∀ r, r ≠ x → t.reg r = s.reg r) ∧
      ∀ j, (t.reg x).getLsbD j = ((s.reg x).getLsbD j || (s.reg y).getLsbD j)) ∧
    (∃ t, exec (.andVxVy x y) s = .next t ∧ SameButRegs s t ∧ (∀ r, r ≠ x → t.reg r = s.reg r) ∧
      ∀ j, (t.reg x).getLsbD j = ((s.reg x).getLsbD j && (s.reg y).getLsbD j)) ∧
    (∃ t, exec (.xorVxVy x y) s = .next t ∧ SameButRegs s t ∧ (∀ r, r ≠ x → t.reg r = s.reg r) ∧
      ∀ j, (t.reg x).getLsbD j = ((s.reg x).getLsbD j ^^ (s.reg y).getLsbD j))

/-- R154: ADD Vx,Vy: the sum modulo 256, VF = 1 iff it exceeds 255 and 0 otherwise, for every x and y, x = F (where the
flag is what remains) and y = F included. -/
def Obligations.AddSetsCarry : Prop :=
  ∀ (k : Word) (x y : Nibble) (s : State), encode k (.addVxVy x y) = 0x8#4 ++ x ++ y ++ 0x4#4 ∧
    ∃ t, exec (.addVxVy x y) s = .next t ∧ SameButRegs s t ∧
      (x ≠ 0xF#4 → (t.reg x).toNat = ((s.reg x).toNat + (s.reg y).toNat) % 256) ∧
      (t.reg 0xF#4).toNat = (if (s.reg x).toNat + (s.reg y).toNat > 255 then 1 else 0) ∧
      ∀ r, r ≠ x → r ≠ 0xF#4 → t.reg r = s.reg r

/-- R155, R157: SUB and SUBN: the difference modulo 256, VF = 1 iff the left operand is STRICTLY greater. -/
def Obligations.SubSetsStrictlyGreater : Prop :=
  ∀ (k : Word) (x y : Nibble) (s : State),
    encode k (.subVxVy x y) = 0x8#4 ++ x ++ y ++ 0x5#4 ∧ encode k (.subnVxVy x y) = 0x8#4 ++ x ++ y ++ 0x7#4 ∧
    (∃ t, exec (.subVxVy x y) s = .next t ∧ SameButRegs s t ∧
      (x ≠ 0xF#4 → ((t.reg x).toNat : Int) = ((s.reg x).toNat - (s.reg y).toNat : Int) % 256) ∧
      (t.reg 0xF#4).toNat = (if (s.reg x).toNat > (s.reg y).toNat then 1 else 0) ∧
      ∀ r, r ≠ x → r ≠ 0xF#4 → t.reg r = s.reg r) ∧
    (∃ t, exec (.subnVxVy x y) s = .next t ∧ SameButRegs s t ∧
      (x ≠ 0xF#4 → ((t.reg x).toNat : Int) = ((s.reg y).toNat - (s.reg x).toNat : Int) % 256) ∧
      (t.reg 0xF#4).toNat = (if (s.reg y).toNat > (s.reg x).toNat then 1 else 0) ∧
      ∀ r, r ≠ x → r ≠ 0xF#4 → t.reg r = s.reg r)

/-- R156, R160 (decision D14 where VF is an operand): SHR halves its source, VF first takes the bit shifted out; when the
source is VF the flag just written is shifted, which gives 0. -/
def Obligations.ShrShiftsSource : Prop :=
  ∀ (x y src : Nibble) (s : State), src = (if s.cfg.qShift then x else y) →
    ∃ t, exec (.shrVxVy x y) s = .next t ∧ SameButRegs s t ∧
      (src ≠ 0xF#4 → (t.reg x).toNat = (s.reg src).toNat / 2) ∧
      (src = 0xF#4 → (t.reg x).toNat = 0) ∧
      (x ≠ 0xF#4 → (t.reg 0xF#4).toNat = (s.reg src).toNat % 2) ∧
      ∀ r, r ≠ x → r ≠ 0xF#4 → t.reg r = s.reg r

/-- R158, R160 (decision D14 where VF is an operand): SHL doubles its source modulo 256, VF first takes bit 7; when the
source is VF the flag just written is shifted, which gives 2 or 0. -/
def Obligations.ShlShiftsSource : Prop :=
  ∀ (x y src : Nibble) (s : State), src = (if s.cfg.qShift then x else y) →
    ∃ t, exec (.shlVxVy x y) s = .next t ∧ SameButRegs s t ∧
      (src ≠ 0xF#4 → (t.reg x).toNat = 2 * (s.reg src).toNat % 256) ∧
      (src = 0xF#4 → (t.reg x).toNat = 2 * ((s.reg src).toNat / 128)) ∧
      (x ≠ 0xF#4 → (t.reg 0xF#4).toNat = (s.reg src).toNat / 128) ∧
      ∀ r, r ≠ x → r ≠ 0xF#4 → t.reg r = s.reg r

/-! ## Immediate and random -/

/-- R170, R171: LD and ADD with an immediate; ADD wraps silently and leaves VF alone unless x = F. -/
def Obligations.ImmediateLoadAndAdd : Prop :=
  ∀ (k : Word) (x : Nibble) (kk : Byte) (s : State),
    encode k (.ldVxKk x kk) = 0x6#4 ++ x ++ kk ∧ encode k (.addVxKk x kk) = 0x7#4 ++ x ++ kk ∧
    (∃ t, exec (.ldVxKk x kk) s = .next t ∧ SameButRegs s t ∧ t.reg x = kk ∧ ∀ r, r ≠ x → t.reg r = s.reg r) ∧
    (∃ t, exec (.addVxKk x kk) s = .next t ∧ SameButRegs s t ∧
      (t.reg x).toNat = ((s.reg x).toNat + kk.toNat) % 256 ∧ ∀ r, r ≠ x → t.reg r = s.reg r)

/-- R172: RND stores a draw masked by kk: the free value of this draw, whatever it is (R173, log entry 4), so every bit
where kk has 0 is 0; the next draw is another one. -/
def Obligations.RndMasksDraw : Prop :=
  ∀ (k : Word) (x : Nibble) (kk : Byte) (s : State), encode k (.rnd x kk) = 0xC#4 ++ x ++ kk ∧
    ∃ t, exec (.rnd x kk) s = .next t ∧ t = { s with v := t.v, draws := s.draws + 1, pc := s.pc + 2#16 } ∧
      t.reg x = Config.rnd8 s.draws &&& kk ∧ (∀ j, kk.getLsbD j = false → (t.reg x).getLsbD j = false) ∧
      (∀ r, r ≠ x → t.reg r = s.reg r) ∧ ∀ a, t.byteAt a = s.byteAt a

/-! ## Address register and memory -/

/-- R180, R181 (the wrap by decision D18): LD I,nnn and ADD I,Vx write I and pc alone; the sum wraps at 65536. -/
def Obligations.LoadAndAddIndex : Prop :=
  ∀ (k : Word) (nnn : Addr12) (x : Nibble) (s : State),
    encode k (.ldINnn nnn) = 0xA#4 ++ nnn ∧
    exec (.ldINnn nnn) s = .next { s with ireg := 0x0#4 ++ nnn, pc := s.pc + 2#16 } ∧
    ∃ w : Word, exec (.addIVx x) s = .next { s with ireg := w, pc := s.pc + 2#16 } ∧
      w.toNat = (s.ireg.toNat + (s.reg x).toNat) % 65536

/-- R182, R183 (decisions D19, D20): LD F and LD HF write I and pc alone: 5 times the whole register, and the base plus the
stride times it. -/
def Obligations.GlyphAddresses : Prop :=
  ∀ (x : Nibble) (s : State),
    (∃ w : Word, exec (.ldFVx x) s = .next { s with ireg := w, pc := s.pc + 2#16 } ∧ w.toNat = 5 * (s.reg x).toNat) ∧
    (∃ w : Word, exec (.ldHfVx x) s = .next { s with ireg := w, pc := s.pc + 2#16 } ∧
      w.toNat = (s.cfg.fontHiBase + s.cfg.fontHiStride * (s.reg x).toNat) % 65536)

/-- R185: LD B stores hundreds, tens and units at I, I+1, I+2 and nothing else; out of memory it raises MemRange before any
byte is written. -/
def Obligations.BcdStoresDigits : Prop :=
  ∀ (k : Word) (x : Nibble) (s : State), encode k (.ldBVx x) = 0xF#4 ++ x ++ 0x33#8 ∧
    (s.MemOk → s.ireg.toNat + 2 < 4096 →
      ∃ t, exec (.ldBVx x) s = .next t ∧ t = { s with mem := t.mem, pc := s.pc + 2#16 } ∧
        (t.byteAt s.ireg.toNat).toNat = (s.reg x).toNat / 100 ∧
        (t.byteAt (s.ireg.toNat + 1)).toNat = (s.reg x).toNat / 10 % 10 ∧
        (t.byteAt (s.ireg.toNat + 2)).toNat = (s.reg x).toNat % 10 ∧
        ∀ a, a < s.ireg.toNat ∨ s.ireg.toNat + 2 < a → t.byteAt a = s.byteAt a) ∧
    (4096 ≤ s.ireg.toNat + 2 → exec (.ldBVx x) s = .next (Faulted s .memRange (max s.ireg.toNat 4096)))

/-- R186: LD [I],Vx stores V0 to Vx from I up and nothing else; I advances by x+1 under Q_LDST; out of memory it raises
MemRange before any byte is written. -/
def Obligations.BlockStore : Prop :=
  ∀ (k : Word) (x : Nibble) (s : State), encode k (.ldMemVx x) = 0xF#4 ++ x ++ 0x55#8 ∧
    (s.MemOk → s.ireg.toNat + x.toNat < 4096 →
      ∃ t, exec (.ldMemVx x) s = .next t ∧
        t = { s with mem := t.mem, ireg := t.ireg, pc := s.pc + 2#16 } ∧
        (∀ r : Nibble, r.toNat ≤ x.toNat → t.byteAt (s.ireg.toNat + r.toNat) = s.reg r) ∧
        (∀ a, a < s.ireg.toNat ∨ s.ireg.toNat + x.toNat < a → t.byteAt a = s.byteAt a) ∧
        t.ireg.toNat = (if s.cfg.qLdst then (s.ireg.toNat + x.toNat + 1) % 65536 else s.ireg.toNat)) ∧
    (4096 ≤ s.ireg.toNat + x.toNat → exec (.ldMemVx x) s = .next (Faulted s .memRange (max s.ireg.toNat 4096)))

/-- R187: LD Vx,[I] loads V0 to Vx from I up, no other register and no memory byte; I advances by x+1 under Q_LDST; out of
memory it raises MemRange before any register is written. -/
def Obligations.BlockLoad : Prop :=
  ∀ (k : Word) (x : Nibble) (s : State), encode k (.ldVxMem x) = 0xF#4 ++ x ++ 0x65#8 ∧
    (s.ireg.toNat + x.toNat < 4096 →
      ∃ t, exec (.ldVxMem x) s = .next t ∧
        t = { s with v := t.v, ireg := t.ireg, pc := s.pc + 2#16 } ∧
        (∀ r : Nibble, r.toNat ≤ x.toNat → t.reg r = s.byteAt (s.ireg.toNat + r.toNat)) ∧
        (∀ r : Nibble, x.toNat < r.toNat → t.reg r = s.reg r) ∧ (∀ a, t.byteAt a = s.byteAt a) ∧
        t.ireg.toNat = (if s.cfg.qLdst then (s.ireg.toNat + x.toNat + 1) % 65536 else s.ireg.toNat)) ∧
    (4096 ≤ s.ireg.toNat + x.toNat → exec (.ldVxMem x) s = .next (Faulted s .memRange (max s.ireg.toNat 4096)))

/-! ## Keypad and timers -/

/-- R200, R201 (the fault by decision D22): SKP and SKNP test the key numbered by V[x] and write pc alone; a value above 15
raises KeyIndex. -/
def Obligations.KeySkips : Prop :=
  ∀ (x : Nibble) (s : State),
    ((s.reg x).toNat ≤ 15 →
      exec (.skp x) s =
        .next { s with pc := if s.key.getLsbD (s.reg x).toNat then s.pc + 4#16 else s.pc + 2#16 } ∧
      exec (.sknp x) s =
        .next { s with pc := if s.key.getLsbD (s.reg x).toNat then s.pc + 2#16 else s.pc + 4#16 }) ∧
    (15 < (s.reg x).toNat →
      exec (.skp x) s = .next (Faulted s .keyIndex (s.reg x).toNat) ∧
      exec (.sknp x) s = .next (Faulted s .keyIndex (s.reg x).toNat))

/-- R202 (decision D23), the half a Step does: LD Vx,K latches x and begins the wait; pc stays. -/
def Obligations.WaitForKeyBegins : Prop :=
  ∀ (k : Word) (x : Nibble) (s : State), encode k (.ldVxK x) = 0xF#4 ++ x ++ 0x0A#8 ∧
    exec (.ldVxK x) s = .next { s with wreg := x, run := .awaitingKey }

/-- R203, R204, R205 (general knowledge of the spec's writer, D5), R37: the timer accesses, and TONE following ST. -/
def Obligations.TimerAccess : Prop :=
  ∀ (x : Nibble) (s : State),
    (∃ t, exec (.ldVxDt x) s = .next t ∧ SameButRegs s t ∧ t.reg x = s.dt ∧ ∀ r, r ≠ x → t.reg r = s.reg r) ∧
    exec (.ldDtVx x) s = .next { s with dt := s.reg x, pc := s.pc + 2#16 } ∧
    (∃ t, exec (.ldStVx x) s = .next t ∧ t = { s with st := s.reg x, pc := s.pc + 2#16 } ∧
      (t.tone = true ↔ s.reg x ≠ 0x00#8))

/-! ## Display and system -/

/-- R225: CLS turns every pixel off and sets DIRTY; the mode, VF and all else stay. -/
def Obligations.ClsClearsDisplay : Prop :=
  ∀ (k : Word) (s : State), encode k .cls = 0x00E0#16 ∧
    ∃ t, exec .cls s = .next t ∧ t = { s with fb := t.fb, dirty := true, pc := s.pc + 2#16 } ∧ t.FbOk ∧
      ∀ r c, t.pixel r c = 0x00#8

/-- R228, R229, R224 (decisions D28, D29): LOW and HIGH set the mode, give a new all-zero buffer of its size, also when the
mode is already that, and set DIRTY. -/
def Obligations.ModeSwitchClears : Prop :=
  ∀ s : State,
    (∃ t, exec .low s = .next t ∧ t = { s with mode := .low, fb := t.fb, dirty := true, pc := s.pc + 2#16 } ∧
      t.FbOk ∧ t.fb.length = 32 ∧ (∀ row ∈ t.fb, row.length = 64) ∧ ∀ r c, t.pixel r c = 0x00#8) ∧
    (∃ t, exec .high s = .next t ∧ t = { s with mode := .high, fb := t.fb, dirty := true, pc := s.pc + 2#16 } ∧
      t.FbOk ∧ t.fb.length = 64 ∧ (∀ row ∈ t.fb, row.length = 128) ∧ ∀ r c, t.pixel r c = 0x00#8)

/-- R226, R227, R221 (decision D25: clipping, bit 7 left, VF 0 without a collision): DRW toggles exactly the pixels its
sprite lights, sets VF iff one of them was on, sets DIRTY and changes nothing else; out of memory it raises MemRange before
anything is written. -/
def Obligations.DrawTogglesSpritePixels : Prop :=
  ∀ (k : Word) (x y n : Nibble) (s : State), encode k (.drw x y n) = 0xD#4 ++ x ++ y ++ n ∧
    (s.FbOk → (n = 0x0#4 ∨ s.ireg.toNat + n.toNat - 1 < 4096) →
      ∃ t, exec (.drw x y n) s = .next t ∧
        t = { s with v := t.v, fb := t.fb, dirty := true, pc := s.pc + 2#16 } ∧ t.FbOk ∧
        (∀ px py, px < s.mode.width → py < s.mode.height →
          (SpriteLights s x y n px py → t.pixel py px = s.pixel py px ^^^ 0xFF#8) ∧
          (¬ SpriteLights s x y n px py → t.pixel py px = s.pixel py px)) ∧
        (t.reg 0xF#4 = 0x01#8 ↔ ∃ px py, SpriteLights s x y n px py ∧ s.pixel py px = 0xFF#8) ∧
        (t.reg 0xF#4 = 0x01#8 ∨ t.reg 0xF#4 = 0x00#8) ∧
        (∀ r, r ≠ 0xF#4 → t.reg r = s.reg r) ∧ ∀ a, t.byteAt a = s.byteAt a) ∧
    (n ≠ 0x0#4 → 4096 ≤ s.ireg.toNat + n.toNat - 1 →
      exec (.drw x y n) s = .next (Faulted s .memRange (max s.ireg.toNat 4096)))

/-- Source property S5 (R226): the same draw twice restores the framebuffer. The second draw sets VF exactly when some lit
pixel was OFF before the first; so, from a blank screen, when the sprite lights any pixel. (R226's sentence "the second
draw sets VF = 1 if the sprite has any visible 1 bit" leaves that premise out: log entry 31.) -/
def Obligations.DrawTwiceRestores : Prop :=
  ∀ (x y n : Nibble) (s t : State), s.FbOk → x ≠ 0xF#4 → y ≠ 0xF#4 →
    (n = 0x0#4 ∨ s.ireg.toNat + n.toNat - 1 < 4096) → exec (.drw x y n) s = .next t →
    ∃ u, exec (.drw x y n) t = .next u ∧ u.fb = s.fb ∧
      (u.reg 0xF#4 = 0x01#8 ↔ ∃ px py, SpriteLights s x y n px py ∧ s.pixel py px = 0x00#8)

/-- R230, R231, R222, R223 (decisions D4, D27, D29): SCD and SCU move the picture n rows down or up, fill with 0x00, set
DIRTY and change nothing else. -/
def Obligations.ScrollsMoveRows : Prop :=
  ∀ (n : Nibble) (s : State),
    (∃ t, exec (.scd n) s = .next t ∧ t = { s with fb := t.fb, dirty := true, pc := s.pc + 2#16 } ∧
      t.fb.length = s.mode.height ∧
      ∀ r c, r < s.mode.height → t.pixel r c = (if n.toNat ≤ r then s.pixel (r - n.toNat) c else 0x00#8)) ∧
    (∃ t, exec (.scu n) s = .next t ∧ t = { s with fb := t.fb, dirty := true, pc := s.pc + 2#16 } ∧
      t.fb.length = s.mode.height ∧
      ∀ r c, r < s.mode.height →
        t.pixel r c = (if r + n.toNat < s.mode.height then s.pixel (r + n.toNat) c else 0x00#8))

/-- R109, R232, R233, R236, R237: SCR, SCL, LD R,Vx and LD Vx,R are classified and only advance pc by 2. -/
def Obligations.AcceptedNoOps : Prop :=
  ∀ (k : Word) (x : Nibble) (s : State),
    encode k .scr = 0x00FB#16 ∧ encode k .scl = 0x00FC#16 ∧ encode k (.ldRVx x) = 0xF#4 ++ x ++ 0x75#8 ∧
    encode k (.ldVxR x) = 0xF#4 ++ x ++ 0x85#8 ∧
    exec .scr s = .next { s with pc := s.pc + 2#16 } ∧ exec .scl s = .next { s with pc := s.pc + 2#16 } ∧
    exec (.ldRVx x) s = .next { s with pc := s.pc + 2#16 } ∧ exec (.ldVxR x) s = .next { s with pc := s.pc + 2#16 }

/-- R235 (pc stays by decision D30): EXIT halts and changes nothing else. -/
def Obligations.ExitHalts : Prop :=
  ∀ (k : Word) (s : State), encode k .exit = 0x00FD#16 ∧ exec .exit s = .next { s with run := .halted }
end

