-- ==== Sys2Proof/Laws/Encoding.lean ====
section
/-! SUPPORT. Words as four nibbles: every encoding of 30_encoding.md is a choice of nibbles (R91), and every mask keeps or drops
whole nibbles (R95), so the classifier's tests are comparisons of nibbles. -/

namespace Sys2Proof

theorem getLsbD_wordOfNibbles (a b c d : Nibble) (i : Nat) :
    (wordOfNibbles a b c d).getLsbD i =
      if i < 4 then d.getLsbD i else if i < 8 then c.getLsbD (i - 4) else if i < 12 then b.getLsbD (i - 8)
      else a.getLsbD (i - 12) := by
  unfold wordOfNibbles
  simp only [BitVec.getLsbD_append]
  by_cases h1 : i < 4
  · simp [h1]
  · by_cases h2 : i < 8
    · have : i - 4 < 4 := by omega
      simp [h1, h2, this]
    · by_cases h3 : i < 12
      · have h4 : ¬ i - 4 < 4 := by omega
        have h5 : i - 8 < 4 := by omega
        have h6 : i - 4 - 4 = i - 8 := by omega
        simp only [h1, h2, h3, h4, h5, h6, if_true, if_false]
      · have h4 : ¬ i - 4 < 4 := by omega
        have h5 : ¬ i - 4 - 4 < 4 := by omega
        have h6 : i - 4 - 4 - 4 = i - 12 := by omega
        simp only [h1, h2, h3, h4, h5, h6, if_false]

/-- AND of two words, nibble by nibble. -/
theorem wordOfNibbles_and (a b c d a' b' c' d' : Nibble) :
    wordOfNibbles a b c d &&& wordOfNibbles a' b' c' d' =
      wordOfNibbles (a &&& a') (b &&& b') (c &&& c') (d &&& d') := by
  apply BitVec.eq_of_getLsbD_eq
  intro i _
  simp only [BitVec.getLsbD_and, getLsbD_wordOfNibbles]
  split
  · rfl
  · split
    · rfl
    · split <;> rfl

/-- OR of two words, nibble by nibble. -/
theorem wordOfNibbles_or (a b c d a' b' c' d' : Nibble) :
    wordOfNibbles a b c d ||| wordOfNibbles a' b' c' d' =
      wordOfNibbles (a ||| a') (b ||| b') (c ||| c') (d ||| d') := by
  apply BitVec.eq_of_getLsbD_eq
  intro i _
  simp only [BitVec.getLsbD_or, getLsbD_wordOfNibbles]
  split
  · rfl
  · split
    · rfl
    · split <;> rfl

/-- The fields of a word of nibbles (R92). -/
theorem fields_wordOfNibbles (a b c d : Nibble) :
    fields (wordOfNibbles a b c d) = ⟨b ++ c ++ d, c ++ d, b, c, d⟩ := by
  have h12 : (wordOfNibbles a b c d).extractLsb' 0 12 = b ++ c ++ d := by
    apply BitVec.eq_of_getLsbD_eq
    intro i hi
    simp only [BitVec.getLsbD_extractLsb', getLsbD_wordOfNibbles, BitVec.getLsbD_append, Nat.zero_add, hi, decide_true,
      Bool.true_and]
    by_cases h1 : i < 4
    · simp [h1]
    · by_cases h2 : i < 8
      · have : i - 4 < 4 := by omega
        simp [h1, h2, this]
      · have h4 : ¬ i - 4 < 4 := by omega
        have h6 : i - 4 - 4 = i - 8 := by omega
        simp only [h1, h2, h4, h6, if_false, if_true]
  have h8 : (wordOfNibbles a b c d).extractLsb' 0 8 = c ++ d := by
    apply BitVec.eq_of_getLsbD_eq
    intro i hi
    simp only [BitVec.getLsbD_extractLsb', getLsbD_wordOfNibbles, BitVec.getLsbD_append, Nat.zero_add, hi, decide_true,
      Bool.true_and]
    by_cases h1 : i < 4
    · simp [h1]
    · simp [h1]
  have hb : (wordOfNibbles a b c d).extractLsb' 8 4 = b := by
    apply BitVec.eq_of_getLsbD_eq
    intro i hi
    have h1 : ¬ 8 + i < 4 := by omega
    have h2 : ¬ 8 + i < 8 := by omega
    have h3 : 8 + i < 12 := by omega
    have h4 : 8 + i - 8 = i := by omega
    simp only [BitVec.getLsbD_extractLsb', getLsbD_wordOfNibbles, hi, decide_true, Bool.true_and, h1, h2, h3, h4, if_true,
      if_false]
  have hc : (wordOfNibbles a b c d).extractLsb' 4 4 = c := by
    apply BitVec.eq_of_getLsbD_eq
    intro i hi
    have h1 : ¬ 4 + i < 4 := by omega
    have h2 : 4 + i < 8 := by omega
    have h4 : 4 + i - 4 = i := by omega
    simp only [BitVec.getLsbD_extractLsb', getLsbD_wordOfNibbles, hi, decide_true, Bool.true_and, h1, h2, h4, if_true,
      if_false]
  have hd : (wordOfNibbles a b c d).extractLsb' 0 4 = d := by
    apply BitVec.eq_of_getLsbD_eq
    intro i hi
    simp only [BitVec.getLsbD_extractLsb', getLsbD_wordOfNibbles, hi, decide_true, Bool.true_and, if_true, Nat.zero_add]
  unfold fields
  rw [h12, h8, hb, hc, hd]

/-- Words are equal exactly when their nibbles are. -/
theorem wordOfNibbles_inj (a b c d a' b' c' d' : Nibble) :
    wordOfNibbles a b c d = wordOfNibbles a' b' c' d' ↔ a = a' ∧ b = b' ∧ c = c' ∧ d = d' := by
  constructor
  · intro h
    refine ⟨?_, ?_, ?_, ?_⟩ <;> apply BitVec.eq_of_getLsbD_eq <;> intro i hi
    · have := congrArg (·.getLsbD (12 + i)) h
      have h1 : ¬ 12 + i < 4 := by omega
      have h2 : ¬ 12 + i < 8 := by omega
      have h3 : ¬ 12 + i < 12 := by omega
      simpa [getLsbD_wordOfNibbles, h1, h2] using this
    · have := congrArg (·.getLsbD (8 + i)) h
      have h1 : ¬ 8 + i < 4 := by omega
      have h3 : 8 + i < 12 := by omega
      simpa [getLsbD_wordOfNibbles, h1, h3] using this
    · have := congrArg (·.getLsbD (4 + i)) h
      have h2 : 4 + i < 8 := by omega
      simpa [getLsbD_wordOfNibbles, h2] using this
    · have := congrArg (·.getLsbD i) h
      simpa [getLsbD_wordOfNibbles, hi] using this
  · rintro ⟨rfl, rfl, rfl, rfl⟩; rfl

/-- Every word is its four nibbles (R91). -/
theorem word_eq_nibbles (w : Word) :
    w = wordOfNibbles (w.extractLsb' 12 4) (w.extractLsb' 8 4) (w.extractLsb' 4 4) (w.extractLsb' 0 4) := by
  apply BitVec.eq_of_getLsbD_eq
  intro i hi
  rw [getLsbD_wordOfNibbles]
  simp only [BitVec.getLsbD_extractLsb']
  split
  · simp_all
  · split
    · have h4 : 4 + (i - 4) = i := by omega
      have h5 : i - 4 < 4 := by omega
      simp [h4, h5]
    · split
      · have h4 : 8 + (i - 8) = i := by omega
        have h5 : i - 8 < 4 := by omega
        simp [h4, h5]
      · have h4 : 12 + (i - 12) = i := by omega
        have h5 : i - 12 < 4 := by omega
        simp [h4, h5]

/-- An address operand is its three nibbles. -/
theorem addr_eq_nibbles (a : Addr12) : a = a.extractLsb' 8 4 ++ a.extractLsb' 4 4 ++ a.extractLsb' 0 4 := by
  apply BitVec.eq_of_getLsbD_eq
  intro i hi
  simp only [BitVec.getLsbD_append, BitVec.getLsbD_extractLsb']
  by_cases h1 : i < 4
  · simp [h1]
  · by_cases h2 : i < 8
    · have h4 : 4 + (i - 4) = i := by omega
      have h5 : i - 4 < 4 := by omega
      simp [h1, h4, h5]
    · have h5 : ¬ i - 4 < 4 := by omega
      have h6 : 8 + (i - 4 - 4) = i := by omega
      have h7 : i - 4 - 4 < 4 := by omega
      simp only [h1, h5, h6, h7, decide_true, Bool.true_and, if_false]

/-- An immediate byte is its two nibbles. -/
theorem byte_eq_nibbles (b : Byte) : b = b.extractLsb' 4 4 ++ b.extractLsb' 0 4 := by
  apply BitVec.eq_of_getLsbD_eq
  intro i hi
  simp only [BitVec.getLsbD_append, BitVec.getLsbD_extractLsb']
  by_cases h1 : i < 4
  · simp [h1]
  · have h4 : 4 + (i - 4) = i := by omega
    have h5 : i - 4 < 4 := by omega
    simp [h1, h4, h5]

theorem append_assoc_addr (op a b c : Nibble) : op ++ (a ++ b ++ c) = wordOfNibbles op a b c := by
  apply BitVec.eq_of_getLsbD_eq
  intro i hi
  rw [getLsbD_wordOfNibbles]
  simp only [BitVec.getLsbD_append]
  by_cases h1 : i < 4
  · have h3 : i < 12 := by omega
    simp [h1, h3]
  · by_cases h2 : i < 8
    · have h3 : i < 12 := by omega
      have h4 : i - 4 < 4 := by omega
      simp [h1, h2, h3, h4]
    · by_cases h3 : i < 12
      · have h4 : ¬ i - 4 < 4 := by omega
        have h5 : i - 4 - 4 = i - 8 := by omega
        simp only [h1, h2, h3, h4, h5, if_true, if_false]
      · simp [h1, h2, h3]

theorem append_assoc_imm (op x a b : Nibble) : op ++ x ++ (a ++ b) = wordOfNibbles op x a b := by
  apply BitVec.eq_of_getLsbD_eq
  intro i hi
  rw [getLsbD_wordOfNibbles]
  simp only [BitVec.getLsbD_append]
  by_cases h1 : i < 4
  · have h3 : i < 8 := by omega
    simp [h1, h3]
  · by_cases h2 : i < 8
    · have h4 : i - 4 < 4 := by omega
      simp [h1, h2]
    · by_cases h3 : i < 12
      · have h4 : i - 8 < 4 := by omega
        simp [h1, h2, h3, h4]
      · have h4 : ¬ i - 8 < 4 := by omega
        have h5 : i - 8 - 4 = i - 12 := by omega
        simp only [h1, h2, h3, h4, h5, if_false]

/-- The word of an address operand, in nibbles. -/
theorem wordOfAddr_eq (op : Nibble) (a : Addr12) :
    wordOfAddr op a = wordOfNibbles op (a.extractLsb' 8 4) (a.extractLsb' 4 4) (a.extractLsb' 0 4) := by
  unfold wordOfAddr
  conv_lhs => rw [addr_eq_nibbles a]
  exact append_assoc_addr _ _ _ _

/-- The word of a register and an immediate byte, in nibbles. -/
theorem wordOfImm_eq (op x : Nibble) (b : Byte) :
    wordOfImm op x b = wordOfNibbles op x (b.extractLsb' 4 4) (b.extractLsb' 0 4) := by
  unfold wordOfImm
  conv_lhs => rw [byte_eq_nibbles b]
  exact append_assoc_imm _ _ _ _

/-- The masks in nibbles (R95). -/
theorem mask_f1 : Family.f1.mask = wordOfNibbles 0xF#4 0x0#4 0xF#4 0xF#4 := by decide
theorem mask_f2 : Family.f2.mask = wordOfNibbles 0xF#4 0x0#4 0x0#4 0xF#4 := by decide
theorem mask_f3 : Family.f3.mask = wordOfNibbles 0xF#4 0x0#4 0x0#4 0x0#4 := by decide
theorem mask_f4 : Family.f4.mask = wordOfNibbles 0x0#4 0x0#4 0xF#4 0x0#4 := by decide

@[simp] theorem and_nibbleOnes (a : Nibble) : a &&& 0xF#4 = a := by revert a; decide

/-- What each family's mask keeps of a word. -/
theorem and_mask_f1 (a b c d : Nibble) : wordOfNibbles a b c d &&& Family.f1.mask = wordOfNibbles a 0#4 c d := by
  rw [mask_f1, wordOfNibbles_and]; simp
theorem and_mask_f2 (a b c d : Nibble) : wordOfNibbles a b c d &&& Family.f2.mask = wordOfNibbles a 0#4 0#4 d := by
  rw [mask_f2, wordOfNibbles_and]; simp
theorem and_mask_f3 (a b c d : Nibble) : wordOfNibbles a b c d &&& Family.f3.mask = wordOfNibbles a 0#4 0#4 0#4 := by
  rw [mask_f3, wordOfNibbles_and]; simp
theorem and_mask_f4 (a b c d : Nibble) : wordOfNibbles a b c d &&& Family.f4.mask = wordOfNibbles 0#4 0#4 c 0#4 := by
  rw [mask_f4, wordOfNibbles_and]; simp

/-- A KEY_SCU the spec admits is one nibble in bits 7:4 (R104). -/
theorem keyScuOk_nibble {k : Word} (h : keyScuOk k = true) :
    k = wordOfNibbles 0#4 0#4 (k.extractLsb' 4 4) 0#4 ∧ k.extractLsb' 4 4 ≠ 0xE#4 ∧ k.extractLsb' 4 4 ≠ 0xC#4 := by
  unfold keyScuOk at h
  simp only [Bool.and_eq_true, beq_iff_eq, bne_iff_ne, ne_eq] at h
  obtain ⟨⟨h0, hE⟩, hC⟩ := h
  have hk : k = wordOfNibbles 0#4 0#4 (k.extractLsb' 4 4) 0#4 := by
    have hm : (0xFF0F#16 : Word) = wordOfNibbles 0xF#4 0xF#4 0x0#4 0xF#4 := by decide
    have hz : (0#16 : Word) = wordOfNibbles 0#4 0#4 0#4 0#4 := by decide
    have e := h0
    rw [word_eq_nibbles k, hm, wordOfNibbles_and, hz, wordOfNibbles_inj] at e
    simp only [and_nibbleOnes] at e
    conv_lhs => rw [word_eq_nibbles k, e.1, e.2.1, e.2.2.2]
  refine ⟨hk, fun e => hE ?_, fun e => hC ?_⟩
  · rw [hk, e]; decide
  · rw [hk, e]; decide

/-- SCU's word in nibbles. -/
theorem encode_scu {k : Word} (h : keyScuOk k = true) (n : Nibble) :
    encode k (.scu n) = wordOfNibbles 0#4 0#4 (k.extractLsb' 4 4) n := by
  have hn : n.setWidth 16 = wordOfNibbles 0#4 0#4 0#4 n := by revert n; decide
  show k ||| n.setWidth 16 = _
  rw [hn]
  conv_lhs => rw [(keyScuOk_nibble h).1]
  rw [wordOfNibbles_or]
  simp

end Sys2Proof
end

