-- ==== Sys2Proof/Laws/Framebuffer.lean ====
section
/-! SUPPORT. The laws of the framebuffer: what each primitive leaves at each pixel, and that each keeps the buffer's shape
(10_state.md rules R38, R39). -/

namespace Sys2Proof.Machine

/-! ## Pixels -/

theorem fbPixel_blank (m : Mode) (r c : Nat) : fbPixel (blankFb m) r c = pixelOff := by
  unfold fbPixel blankFb blankRow
  simp only [List.getD_eq_getElem?_getD, List.getElem?_replicate]
  split <;> simp [List.getElem?_replicate]
  split <;> rfl

/-- FbXorPixel changes its own pixel, when it lies in the buffer, and no other (R221). -/
theorem fbPixel_fbXor (fb : List (List Byte)) (px py r c : Nat) :
    fbPixel (fbXor fb px py) r c =
      if r = py ∧ c = px ∧ py < fb.length ∧ px < (fb.getD py []).length then fbPixel fb r c ^^^ pixelOn
      else fbPixel fb r c := by
  unfold fbPixel fbXor
  simp only [List.getD_eq_getElem?_getD, List.getElem?_modify]
  by_cases hr : r = py
  · subst hr
    simp only [true_and, if_true]
    cases hrow : fb[r]? with
    | none =>
      have : ¬ r < fb.length := by simpa using hrow
      simp [this]
    | some row =>
      have : r < fb.length := (List.getElem?_eq_some_iff.mp hrow).1
      simp only [Option.getD_some, this, true_and]
      by_cases hc : c = px
      · subst hc
        cases hb : row[c]? with
        | none =>
          have : ¬ c < row.length := by simpa using hb
          simp [this]
        | some b =>
          obtain ⟨this, hb⟩ := List.getElem?_eq_some_iff.mp hb
          simp [this, hb]
      · simp [hc, Ne.symm hc]
  · simp [hr, Ne.symm hr]

/-- A row of a scrolled-down buffer (R222). -/
theorem fbPixel_scrollDown (m : Mode) (k : Nat) (old : List (List Byte)) (r c : Nat) (hr : r < m.height) :
    fbPixel (fbScrollDown m k old) r c = if k ≤ r then fbPixel old (r - k) c else pixelOff := by
  unfold fbPixel fbScrollDown blankRow
  simp only [List.getD_eq_getElem?_getD, List.getElem?_map, List.getElem?_range hr, Option.map_some, Option.getD_some]
  split
  · cases old[r - k]? with
    | none =>
      simp only [Option.getD_none, List.getElem?_replicate]
      split <;> simp
    | some row => rfl
  · simp only [List.getElem?_replicate]
    split <;> rfl

/-- A row of a scrolled-up buffer (R223). -/
theorem fbPixel_scrollUp (m : Mode) (k : Nat) (old : List (List Byte)) (r c : Nat) (hr : r < m.height) :
    fbPixel (fbScrollUp m k old) r c = if r + k < m.height then fbPixel old (r + k) c else pixelOff := by
  unfold fbPixel fbScrollUp blankRow
  simp only [List.getD_eq_getElem?_getD, List.getElem?_map, List.getElem?_range hr, Option.map_some, Option.getD_some]
  split
  · cases old[r + k]? with
    | none =>
      simp only [Option.getD_none, List.getElem?_replicate]
      split <;> simp
    | some row => rfl
  · simp only [List.getElem?_replicate]
    split <;> rfl

/-! ## Shape -/

/-- A row of the width holding only 0x00 and 0xFF. -/
def rowWf (m : Mode) (row : List Byte) : Prop :=
  row.length = m.width ∧ ∀ b ∈ row, b = pixelOff ∨ b = pixelOn

/-- The shape as a proposition over rows. -/
theorem fbWf_iff (m : Mode) (fb : List (List Byte)) :
    fbWf m fb = true ↔ fb.length = m.height ∧ ∀ row ∈ fb, rowWf m row := by
  simp [fbWf, rowWf, List.all_eq_true]

theorem rowWf_blank (m : Mode) : rowWf m (blankRow m) := by
  refine ⟨by simp [blankRow], fun b hb => Or.inl ?_⟩
  exact (List.mem_replicate.mp hb).2

theorem fbWf_blank (m : Mode) : fbWf m (blankFb m) = true := by
  rw [fbWf_iff]
  refine ⟨by simp [blankFb], fun row h => ?_⟩
  rw [(List.mem_replicate.mp h).2]
  exact rowWf_blank m

theorem xor_pixelOn {b : Byte} (h : b = pixelOff ∨ b = pixelOn) : b ^^^ pixelOn = pixelOff ∨ b ^^^ pixelOn = pixelOn := by
  rcases h with rfl | rfl <;> decide

theorem rowWf_modify {m : Mode} {row : List Byte} (h : rowWf m row) (px : Nat) :
    rowWf m (row.modify px fun b => b ^^^ pixelOn) := by
  refine ⟨by simp [h.1], fun b hb => ?_⟩
  obtain ⟨i, hi, rfl⟩ := List.mem_iff_getElem.mp hb
  rw [List.getElem_modify]
  have hi' : i < row.length := by simpa using hi
  split
  · exact xor_pixelOn (h.2 _ (List.getElem_mem hi'))
  · exact h.2 _ (List.getElem_mem hi')

/-- FbXorPixel keeps the shape (R221). -/
theorem fbWf_fbXor {m : Mode} {fb : List (List Byte)} (h : fbWf m fb = true) (px py : Nat) :
    fbWf m (fbXor fb px py) = true := by
  rw [fbWf_iff] at h ⊢
  refine ⟨by simp [fbXor, h.1], fun row hrow => ?_⟩
  obtain ⟨i, hi, rfl⟩ := List.mem_iff_getElem.mp hrow
  have hi' : i < fb.length := by simpa [fbXor] using hi
  simp only [fbXor, List.getElem_modify]
  split
  · exact rowWf_modify (h.2 _ (List.getElem_mem hi')) px
  · exact h.2 _ (List.getElem_mem hi')

/-- Drawing keeps the shape (R226). -/
theorem fbWf_fbDraw {m : Mode} (ps : List (Nat × Nat)) {fb : List (List Byte)} (col : Bool) (h : fbWf m fb = true) :
    fbWf m (fbDraw ps fb col).1 = true := by
  induction ps generalizing fb col with
  | nil => exact h
  | cons p ps ih => exact ih _ (fbWf_fbXor h _ _)

theorem rowWf_getD {m : Mode} {fb : List (List Byte)} (h : ∀ row ∈ fb, rowWf m row) (r : Nat) :
    rowWf m (fb.getD r (blankRow m)) := by
  rw [List.getD_eq_getElem?_getD]
  cases e : fb[r]? with
  | none => exact rowWf_blank m
  | some row => exact h _ (List.mem_of_getElem? e)

/-- Scrolling down keeps the shape (R222). -/
theorem fbWf_scrollDown {m : Mode} {fb : List (List Byte)} (h : fbWf m fb = true) (k : Nat) :
    fbWf m (fbScrollDown m k fb) = true := by
  rw [fbWf_iff] at h ⊢
  refine ⟨by simp [fbScrollDown], fun row hrow => ?_⟩
  obtain ⟨r, -, rfl⟩ := List.mem_map.mp hrow
  split
  · exact rowWf_getD h.2 _
  · exact rowWf_blank m

/-- Scrolling up keeps the shape (R223). -/
theorem fbWf_scrollUp {m : Mode} {fb : List (List Byte)} (h : fbWf m fb = true) (k : Nat) :
    fbWf m (fbScrollUp m k fb) = true := by
  rw [fbWf_iff] at h ⊢
  refine ⟨by simp [fbScrollUp], fun row hrow => ?_⟩
  obtain ⟨r, -, rfl⟩ := List.mem_map.mp hrow
  split
  · exact rowWf_getD h.2 _
  · exact rowWf_blank m

/-- A pixel of a well-formed buffer is off or on. -/
theorem fbPixel_onOff {m : Mode} {fb : List (List Byte)} (h : fbWf m fb = true) (r c : Nat) :
    fbPixel fb r c = pixelOff ∨ fbPixel fb r c = pixelOn := by
  rw [fbWf_iff] at h
  unfold fbPixel
  simp only [List.getD_eq_getElem?_getD]
  cases e : fb[r]? with
  | none => left; rfl
  | some row =>
    simp only [Option.getD_some]
    cases e' : row[c]? with
    | none => left; rfl
    | some b => exact (h.2 _ (List.mem_of_getElem? e)).2 _ (List.mem_of_getElem? e')

/-- Within the screen every pixel is in the buffer. -/
theorem fbWf_bounds {m : Mode} {fb : List (List Byte)} (h : fbWf m fb = true) {py : Nat} (hp : py < m.height) :
    py < fb.length ∧ (fb.getD py []).length = m.width := by
  rw [fbWf_iff] at h
  have hl : py < fb.length := by omega
  refine ⟨hl, ?_⟩
  rw [List.getD_eq_getElem?_getD, List.getElem?_eq_getElem hl]
  exact (h.2 _ (List.getElem_mem hl)).1

/-- Buffers of the mode's shape with the same pixels are the same buffer. -/
theorem fb_ext {m : Mode} {fb fb' : List (List Byte)} (h : fbWf m fb = true) (h' : fbWf m fb' = true)
    (hp : ∀ r c, r < m.height → c < m.width → fbPixel fb r c = fbPixel fb' r c) : fb = fb' := by
  rw [fbWf_iff] at h h'
  refine List.ext_getElem (by rw [h.1, h'.1]) fun r hr hr' => ?_
  have w := (h.2 _ (List.getElem_mem hr)).1
  have w' := (h'.2 _ (List.getElem_mem hr')).1
  refine List.ext_getElem (by rw [w, w']) fun c hc hc' => ?_
  have := hp r c (by omega) (by omega)
  simpa [fbPixel, List.getD_eq_getElem?_getD, List.getElem?_eq_getElem hr, List.getElem?_eq_getElem hr',
    List.getElem?_eq_getElem hc, List.getElem?_eq_getElem hc'] using this

/-! ## Sprites -/

/-- The collision bit so far only adds to the collision bit at the end. -/
theorem fbDraw_col (ps : List (Nat × Nat)) (fb : List (List Byte)) (col : Bool) :
    fbDraw ps fb col = ((fbDraw ps fb false).1, (fbDraw ps fb false).2 || col) := by
  induction ps generalizing fb col with
  | nil => simp [fbDraw]
  | cons p ps ih =>
    rw [fbDraw, fbDraw, ih, ih _ (fbHit fb p.1 p.2 || false)]
    simp [Bool.or_assoc]

/-- Where one sprite row's 1 bits land (R226, R227). -/
theorem mem_rowPlaces (wrap : Bool) (m : Mode) (cx v : Nat) (bits : Byte) (p : Nat × Nat) :
    p ∈ rowPlaces wrap m cx v bits ↔ ∃ c, c < 8 ∧ bits.getLsbD (7 - c) = true ∧ place wrap m (cx + c) v = some p := by
  simp only [rowPlaces, List.mem_filterMap, List.mem_range]
  constructor
  · rintro ⟨c, hc, h⟩
    split at h
    · exact ⟨c, hc, by assumption, h⟩
    · cases h
  · rintro ⟨c, hc, hb, h⟩
    exact ⟨c, hc, by rw [if_pos hb]; exact h⟩

/-- Where a sprite's 1 bits land, row `r` of the sprite on line `cy + r` (R226, R227). -/
theorem mem_spritePlaces (wrap : Bool) (m : Mode) (cx cy : Nat) (bs : List Byte) (p : Nat × Nat) :
    p ∈ spritePlaces wrap m cx cy bs ↔
      ∃ r c, ∃ h : r < bs.length, c < 8 ∧ (bs[r]).getLsbD (7 - c) = true ∧ place wrap m (cx + c) (cy + r) = some p := by
  induction bs generalizing cy with
  | nil => simp [spritePlaces]
  | cons b bs ih =>
    simp only [spritePlaces, List.mem_append, mem_rowPlaces, ih]
    constructor
    · rintro (⟨c, hc, hb, h⟩ | ⟨r, c, hr, hc, hb, h⟩)
      · exact ⟨0, c, by simp, hc, hb, h⟩
      · exact ⟨r + 1, c, by simpa using hr, hc, by simpa using hb, by rw [← h]; congr 1; omega⟩
    · rintro ⟨r, c, hr, hc, hb, h⟩
      cases r with
      | zero => exact Or.inl ⟨c, hc, by simpa using hb, h⟩
      | succ r =>
        exact Or.inr ⟨r, c, by simpa using hr, hc, by simpa using hb, by rw [← h]; congr 1; omega⟩

/-- A visible place lies on the screen (R227). -/
theorem place_bounds {wrap : Bool} {m : Mode} {u v : Nat} {p : Nat × Nat} (h : place wrap m u v = some p) :
    p.1 < m.width ∧ p.2 < m.height := by
  have hw : 0 < m.width := by cases m <;> decide
  have hh : 0 < m.height := by cases m <;> decide
  unfold place at h
  split at h
  · cases h
    exact ⟨Nat.mod_lt _ hw, Nat.mod_lt _ hh⟩
  · split at h
    · cases h; assumption
    · cases h

end Sys2Proof.Machine
end

