-- ==== Sys2Proof/Laws/State.lean ====
section
/-! SUPPORT. What each update of the state does to each field: one lemma per field per update, so that no later proof unfolds
a record update; then what the register, memory and framebuffer views read after it. -/

namespace Sys2Proof.Machine

variable (s : State)

/-! ## setReg -/

@[simp] theorem State.setReg_v (i : Nibble) (b : Byte) : (s.setReg i b).v = s.v.set i.toNat b i.isLt := rfl
@[simp] theorem State.setReg_pc (i : Nibble) (b : Byte) : (s.setReg i b).pc = s.pc := rfl
@[simp] theorem State.setReg_ireg (i : Nibble) (b : Byte) : (s.setReg i b).ireg = s.ireg := rfl
@[simp] theorem State.setReg_stk (i : Nibble) (b : Byte) : (s.setReg i b).stk = s.stk := rfl
@[simp] theorem State.setReg_dt (i : Nibble) (b : Byte) : (s.setReg i b).dt = s.dt := rfl
@[simp] theorem State.setReg_st (i : Nibble) (b : Byte) : (s.setReg i b).st = s.st := rfl
@[simp] theorem State.setReg_key (i : Nibble) (b : Byte) : (s.setReg i b).key = s.key := rfl
@[simp] theorem State.setReg_mode (i : Nibble) (b : Byte) : (s.setReg i b).mode = s.mode := rfl
@[simp] theorem State.setReg_fb (i : Nibble) (b : Byte) : (s.setReg i b).fb = s.fb := rfl
@[simp] theorem State.setReg_dirty (i : Nibble) (b : Byte) : (s.setReg i b).dirty = s.dirty := rfl
@[simp] theorem State.setReg_run (i : Nibble) (b : Byte) : (s.setReg i b).run = s.run := rfl
@[simp] theorem State.setReg_wreg (i : Nibble) (b : Byte) : (s.setReg i b).wreg = s.wreg := rfl
@[simp] theorem State.setReg_cf (i : Nibble) (b : Byte) : (s.setReg i b).cf = s.cf := rfl
@[simp] theorem State.setReg_hf (i : Nibble) (b : Byte) : (s.setReg i b).hf = s.hf := rfl
@[simp] theorem State.setReg_mem (i : Nibble) (b : Byte) : (s.setReg i b).mem = s.mem := rfl
@[simp] theorem State.setReg_cfg (i : Nibble) (b : Byte) : (s.setReg i b).cfg = s.cfg := rfl
@[simp] theorem State.setReg_reports (i : Nibble) (b : Byte) : (s.setReg i b).reports = s.reports := rfl
@[simp] theorem State.setReg_draws (i : Nibble) (b : Byte) : (s.setReg i b).draws = s.draws := rfl
@[simp] theorem State.setReg_schedule (i : Nibble) (b : Byte) : (s.setReg i b).schedule = s.schedule := rfl
@[simp] theorem State.setReg_byteAt (i : Nibble) (b : Byte) (a : Nat) : (s.setReg i b).byteAt a = s.byteAt a := rfl
@[simp] theorem State.setReg_pixel (i : Nibble) (b : Byte) (r c : Nat) : (s.setReg i b).pixel r c = s.pixel r c := rfl

/-! ## setI -/

@[simp] theorem State.setI_v (w : Word) : (s.setI w).v = s.v := rfl
@[simp] theorem State.setI_pc (w : Word) : (s.setI w).pc = s.pc := rfl
@[simp] theorem State.setI_ireg (w : Word) : (s.setI w).ireg = w := rfl
@[simp] theorem State.setI_stk (w : Word) : (s.setI w).stk = s.stk := rfl
@[simp] theorem State.setI_dt (w : Word) : (s.setI w).dt = s.dt := rfl
@[simp] theorem State.setI_st (w : Word) : (s.setI w).st = s.st := rfl
@[simp] theorem State.setI_key (w : Word) : (s.setI w).key = s.key := rfl
@[simp] theorem State.setI_mode (w : Word) : (s.setI w).mode = s.mode := rfl
@[simp] theorem State.setI_fb (w : Word) : (s.setI w).fb = s.fb := rfl
@[simp] theorem State.setI_dirty (w : Word) : (s.setI w).dirty = s.dirty := rfl
@[simp] theorem State.setI_run (w : Word) : (s.setI w).run = s.run := rfl
@[simp] theorem State.setI_wreg (w : Word) : (s.setI w).wreg = s.wreg := rfl
@[simp] theorem State.setI_cf (w : Word) : (s.setI w).cf = s.cf := rfl
@[simp] theorem State.setI_hf (w : Word) : (s.setI w).hf = s.hf := rfl
@[simp] theorem State.setI_mem (w : Word) : (s.setI w).mem = s.mem := rfl
@[simp] theorem State.setI_cfg (w : Word) : (s.setI w).cfg = s.cfg := rfl
@[simp] theorem State.setI_reports (w : Word) : (s.setI w).reports = s.reports := rfl
@[simp] theorem State.setI_draws (w : Word) : (s.setI w).draws = s.draws := rfl
@[simp] theorem State.setI_schedule (w : Word) : (s.setI w).schedule = s.schedule := rfl
@[simp] theorem State.setI_reg (w : Word) (j : Nibble) : (s.setI w).reg j = s.reg j := rfl
@[simp] theorem State.setI_byteAt (w : Word) (a : Nat) : (s.setI w).byteAt a = s.byteAt a := rfl
@[simp] theorem State.setI_pixel (w : Word) (r c : Nat) : (s.setI w).pixel r c = s.pixel r c := rfl

/-! ## jump -/

@[simp] theorem State.jump_v (w : Word) : (s.jump w).v = s.v := rfl
@[simp] theorem State.jump_pc (w : Word) : (s.jump w).pc = w := rfl
@[simp] theorem State.jump_ireg (w : Word) : (s.jump w).ireg = s.ireg := rfl
@[simp] theorem State.jump_stk (w : Word) : (s.jump w).stk = s.stk := rfl
@[simp] theorem State.jump_dt (w : Word) : (s.jump w).dt = s.dt := rfl
@[simp] theorem State.jump_st (w : Word) : (s.jump w).st = s.st := rfl
@[simp] theorem State.jump_key (w : Word) : (s.jump w).key = s.key := rfl
@[simp] theorem State.jump_mode (w : Word) : (s.jump w).mode = s.mode := rfl
@[simp] theorem State.jump_fb (w : Word) : (s.jump w).fb = s.fb := rfl
@[simp] theorem State.jump_dirty (w : Word) : (s.jump w).dirty = s.dirty := rfl
@[simp] theorem State.jump_run (w : Word) : (s.jump w).run = s.run := rfl
@[simp] theorem State.jump_wreg (w : Word) : (s.jump w).wreg = s.wreg := rfl
@[simp] theorem State.jump_cf (w : Word) : (s.jump w).cf = s.cf := rfl
@[simp] theorem State.jump_hf (w : Word) : (s.jump w).hf = s.hf := rfl
@[simp] theorem State.jump_mem (w : Word) : (s.jump w).mem = s.mem := rfl
@[simp] theorem State.jump_cfg (w : Word) : (s.jump w).cfg = s.cfg := rfl
@[simp] theorem State.jump_reports (w : Word) : (s.jump w).reports = s.reports := rfl
@[simp] theorem State.jump_draws (w : Word) : (s.jump w).draws = s.draws := rfl
@[simp] theorem State.jump_schedule (w : Word) : (s.jump w).schedule = s.schedule := rfl
@[simp] theorem State.jump_reg (w : Word) (j : Nibble) : (s.jump w).reg j = s.reg j := rfl
@[simp] theorem State.jump_byteAt (w : Word) (a : Nat) : (s.jump w).byteAt a = s.byteAt a := rfl
@[simp] theorem State.jump_pixel (w : Word) (r c : Nat) : (s.jump w).pixel r c = s.pixel r c := rfl

/-! ## report -/

@[simp] theorem State.report_v (c : Cause) (n : Nat) : (s.report c n).v = s.v := rfl
@[simp] theorem State.report_pc (c : Cause) (n : Nat) : (s.report c n).pc = s.pc := rfl
@[simp] theorem State.report_ireg (c : Cause) (n : Nat) : (s.report c n).ireg = s.ireg := rfl
@[simp] theorem State.report_stk (c : Cause) (n : Nat) : (s.report c n).stk = s.stk := rfl
@[simp] theorem State.report_dt (c : Cause) (n : Nat) : (s.report c n).dt = s.dt := rfl
@[simp] theorem State.report_st (c : Cause) (n : Nat) : (s.report c n).st = s.st := rfl
@[simp] theorem State.report_key (c : Cause) (n : Nat) : (s.report c n).key = s.key := rfl
@[simp] theorem State.report_mode (c : Cause) (n : Nat) : (s.report c n).mode = s.mode := rfl
@[simp] theorem State.report_fb (c : Cause) (n : Nat) : (s.report c n).fb = s.fb := rfl
@[simp] theorem State.report_dirty (c : Cause) (n : Nat) : (s.report c n).dirty = s.dirty := rfl
@[simp] theorem State.report_run (c : Cause) (n : Nat) : (s.report c n).run = s.run := rfl
@[simp] theorem State.report_wreg (c : Cause) (n : Nat) : (s.report c n).wreg = s.wreg := rfl
@[simp] theorem State.report_cf (c : Cause) (n : Nat) : (s.report c n).cf = s.cf := rfl
@[simp] theorem State.report_hf (c : Cause) (n : Nat) : (s.report c n).hf = s.hf := rfl
@[simp] theorem State.report_mem (c : Cause) (n : Nat) : (s.report c n).mem = s.mem := rfl
@[simp] theorem State.report_cfg (c : Cause) (n : Nat) : (s.report c n).cfg = s.cfg := rfl
@[simp] theorem State.report_reports (c : Cause) (n : Nat) : (s.report c n).reports = s.reports ++ [⟨c, n⟩] := rfl
@[simp] theorem State.report_draws (c : Cause) (n : Nat) : (s.report c n).draws = s.draws := rfl
@[simp] theorem State.report_schedule (c : Cause) (n : Nat) : (s.report c n).schedule = s.schedule := rfl
@[simp] theorem State.report_reg (c : Cause) (n : Nat) (j : Nibble) : (s.report c n).reg j = s.reg j := rfl
@[simp] theorem State.report_byteAt (c : Cause) (n : Nat) (a : Nat) : (s.report c n).byteAt a = s.byteAt a := rfl
@[simp] theorem State.report_pixel (c : Cause) (n : Nat) (r k : Nat) : (s.report c n).pixel r k = s.pixel r k := rfl

/-! ## push -/

@[simp] theorem State.push_v (w : Word) : (s.push w).v = s.v := rfl
@[simp] theorem State.push_pc (w : Word) : (s.push w).pc = s.pc := rfl
@[simp] theorem State.push_ireg (w : Word) : (s.push w).ireg = s.ireg := rfl
@[simp] theorem State.push_stk (w : Word) : (s.push w).stk = w :: s.stk := rfl
@[simp] theorem State.push_dt (w : Word) : (s.push w).dt = s.dt := rfl
@[simp] theorem State.push_st (w : Word) : (s.push w).st = s.st := rfl
@[simp] theorem State.push_key (w : Word) : (s.push w).key = s.key := rfl
@[simp] theorem State.push_mode (w : Word) : (s.push w).mode = s.mode := rfl
@[simp] theorem State.push_fb (w : Word) : (s.push w).fb = s.fb := rfl
@[simp] theorem State.push_dirty (w : Word) : (s.push w).dirty = s.dirty := rfl
@[simp] theorem State.push_run (w : Word) : (s.push w).run = s.run := rfl
@[simp] theorem State.push_wreg (w : Word) : (s.push w).wreg = s.wreg := rfl
@[simp] theorem State.push_cf (w : Word) : (s.push w).cf = s.cf := rfl
@[simp] theorem State.push_hf (w : Word) : (s.push w).hf = s.hf := rfl
@[simp] theorem State.push_mem (w : Word) : (s.push w).mem = s.mem := rfl
@[simp] theorem State.push_cfg (w : Word) : (s.push w).cfg = s.cfg := rfl
@[simp] theorem State.push_reports (w : Word) : (s.push w).reports = s.reports := rfl
@[simp] theorem State.push_draws (w : Word) : (s.push w).draws = s.draws := rfl
@[simp] theorem State.push_schedule (w : Word) : (s.push w).schedule = s.schedule := rfl
@[simp] theorem State.push_reg (w : Word) (j : Nibble) : (s.push w).reg j = s.reg j := rfl
@[simp] theorem State.push_byteAt (w : Word) (a : Nat) : (s.push w).byteAt a = s.byteAt a := rfl
@[simp] theorem State.push_pixel (w : Word) (r c : Nat) : (s.push w).pixel r c = s.pixel r c := rfl

/-! ## markDirty -/

@[simp] theorem State.markDirty_v : (s.markDirty).v = s.v := rfl
@[simp] theorem State.markDirty_pc : (s.markDirty).pc = s.pc := rfl
@[simp] theorem State.markDirty_ireg : (s.markDirty).ireg = s.ireg := rfl
@[simp] theorem State.markDirty_stk : (s.markDirty).stk = s.stk := rfl
@[simp] theorem State.markDirty_dt : (s.markDirty).dt = s.dt := rfl
@[simp] theorem State.markDirty_st : (s.markDirty).st = s.st := rfl
@[simp] theorem State.markDirty_key : (s.markDirty).key = s.key := rfl
@[simp] theorem State.markDirty_mode : (s.markDirty).mode = s.mode := rfl
@[simp] theorem State.markDirty_fb : (s.markDirty).fb = s.fb := rfl
@[simp] theorem State.markDirty_dirty : (s.markDirty).dirty = true := rfl
@[simp] theorem State.markDirty_run : (s.markDirty).run = s.run := rfl
@[simp] theorem State.markDirty_wreg : (s.markDirty).wreg = s.wreg := rfl
@[simp] theorem State.markDirty_cf : (s.markDirty).cf = s.cf := rfl
@[simp] theorem State.markDirty_hf : (s.markDirty).hf = s.hf := rfl
@[simp] theorem State.markDirty_mem : (s.markDirty).mem = s.mem := rfl
@[simp] theorem State.markDirty_cfg : (s.markDirty).cfg = s.cfg := rfl
@[simp] theorem State.markDirty_reports : (s.markDirty).reports = s.reports := rfl
@[simp] theorem State.markDirty_draws : (s.markDirty).draws = s.draws := rfl
@[simp] theorem State.markDirty_schedule : (s.markDirty).schedule = s.schedule := rfl
@[simp] theorem State.markDirty_reg (j : Nibble) : (s.markDirty).reg j = s.reg j := rfl
@[simp] theorem State.markDirty_byteAt (a : Nat) : (s.markDirty).byteAt a = s.byteAt a := rfl
@[simp] theorem State.markDirty_pixel (r c : Nat) : (s.markDirty).pixel r c = s.pixel r c := rfl

/-! ## fbClear -/

@[simp] theorem State.fbClear_v : (s.fbClear).v = s.v := rfl
@[simp] theorem State.fbClear_pc : (s.fbClear).pc = s.pc := rfl
@[simp] theorem State.fbClear_ireg : (s.fbClear).ireg = s.ireg := rfl
@[simp] theorem State.fbClear_stk : (s.fbClear).stk = s.stk := rfl
@[simp] theorem State.fbClear_dt : (s.fbClear).dt = s.dt := rfl
@[simp] theorem State.fbClear_st : (s.fbClear).st = s.st := rfl
@[simp] theorem State.fbClear_key : (s.fbClear).key = s.key := rfl
@[simp] theorem State.fbClear_mode : (s.fbClear).mode = s.mode := rfl
@[simp] theorem State.fbClear_fb : (s.fbClear).fb = blankFb s.mode := rfl
@[simp] theorem State.fbClear_dirty : (s.fbClear).dirty = s.dirty := rfl
@[simp] theorem State.fbClear_run : (s.fbClear).run = s.run := rfl
@[simp] theorem State.fbClear_wreg : (s.fbClear).wreg = s.wreg := rfl
@[simp] theorem State.fbClear_cf : (s.fbClear).cf = s.cf := rfl
@[simp] theorem State.fbClear_hf : (s.fbClear).hf = s.hf := rfl
@[simp] theorem State.fbClear_mem : (s.fbClear).mem = s.mem := rfl
@[simp] theorem State.fbClear_cfg : (s.fbClear).cfg = s.cfg := rfl
@[simp] theorem State.fbClear_reports : (s.fbClear).reports = s.reports := rfl
@[simp] theorem State.fbClear_draws : (s.fbClear).draws = s.draws := rfl
@[simp] theorem State.fbClear_schedule : (s.fbClear).schedule = s.schedule := rfl
@[simp] theorem State.fbClear_reg (j : Nibble) : (s.fbClear).reg j = s.reg j := rfl
@[simp] theorem State.fbClear_byteAt (a : Nat) : (s.fbClear).byteAt a = s.byteAt a := rfl

/-! ## fbSetMode -/

@[simp] theorem State.fbSetMode_v (m : Mode) : (s.fbSetMode m).v = s.v := rfl
@[simp] theorem State.fbSetMode_pc (m : Mode) : (s.fbSetMode m).pc = s.pc := rfl
@[simp] theorem State.fbSetMode_ireg (m : Mode) : (s.fbSetMode m).ireg = s.ireg := rfl
@[simp] theorem State.fbSetMode_stk (m : Mode) : (s.fbSetMode m).stk = s.stk := rfl
@[simp] theorem State.fbSetMode_dt (m : Mode) : (s.fbSetMode m).dt = s.dt := rfl
@[simp] theorem State.fbSetMode_st (m : Mode) : (s.fbSetMode m).st = s.st := rfl
@[simp] theorem State.fbSetMode_key (m : Mode) : (s.fbSetMode m).key = s.key := rfl
@[simp] theorem State.fbSetMode_mode (m : Mode) : (s.fbSetMode m).mode = m := rfl
@[simp] theorem State.fbSetMode_fb (m : Mode) : (s.fbSetMode m).fb = blankFb m := rfl
@[simp] theorem State.fbSetMode_dirty (m : Mode) : (s.fbSetMode m).dirty = s.dirty := rfl
@[simp] theorem State.fbSetMode_run (m : Mode) : (s.fbSetMode m).run = s.run := rfl
@[simp] theorem State.fbSetMode_wreg (m : Mode) : (s.fbSetMode m).wreg = s.wreg := rfl
@[simp] theorem State.fbSetMode_cf (m : Mode) : (s.fbSetMode m).cf = s.cf := rfl
@[simp] theorem State.fbSetMode_hf (m : Mode) : (s.fbSetMode m).hf = s.hf := rfl
@[simp] theorem State.fbSetMode_mem (m : Mode) : (s.fbSetMode m).mem = s.mem := rfl
@[simp] theorem State.fbSetMode_cfg (m : Mode) : (s.fbSetMode m).cfg = s.cfg := rfl
@[simp] theorem State.fbSetMode_reports (m : Mode) : (s.fbSetMode m).reports = s.reports := rfl
@[simp] theorem State.fbSetMode_draws (m : Mode) : (s.fbSetMode m).draws = s.draws := rfl
@[simp] theorem State.fbSetMode_schedule (m : Mode) : (s.fbSetMode m).schedule = s.schedule := rfl
@[simp] theorem State.fbSetMode_reg (m : Mode) (j : Nibble) : (s.fbSetMode m).reg j = s.reg j := rfl
@[simp] theorem State.fbSetMode_byteAt (m : Mode) (a : Nat) : (s.fbSetMode m).byteAt a = s.byteAt a := rfl

/-! ## drawn -/

@[simp] theorem State.drawn_v : (s.drawn).v = s.v := rfl
@[simp] theorem State.drawn_pc : (s.drawn).pc = s.pc := rfl
@[simp] theorem State.drawn_ireg : (s.drawn).ireg = s.ireg := rfl
@[simp] theorem State.drawn_stk : (s.drawn).stk = s.stk := rfl
@[simp] theorem State.drawn_dt : (s.drawn).dt = s.dt := rfl
@[simp] theorem State.drawn_st : (s.drawn).st = s.st := rfl
@[simp] theorem State.drawn_key : (s.drawn).key = s.key := rfl
@[simp] theorem State.drawn_mode : (s.drawn).mode = s.mode := rfl
@[simp] theorem State.drawn_fb : (s.drawn).fb = s.fb := rfl
@[simp] theorem State.drawn_dirty : (s.drawn).dirty = s.dirty := rfl
@[simp] theorem State.drawn_run : (s.drawn).run = s.run := rfl
@[simp] theorem State.drawn_wreg : (s.drawn).wreg = s.wreg := rfl
@[simp] theorem State.drawn_cf : (s.drawn).cf = s.cf := rfl
@[simp] theorem State.drawn_hf : (s.drawn).hf = s.hf := rfl
@[simp] theorem State.drawn_mem : (s.drawn).mem = s.mem := rfl
@[simp] theorem State.drawn_cfg : (s.drawn).cfg = s.cfg := rfl
@[simp] theorem State.drawn_reports : (s.drawn).reports = s.reports := rfl
@[simp] theorem State.drawn_draws : (s.drawn).draws = s.draws + 1 := rfl
@[simp] theorem State.drawn_schedule : (s.drawn).schedule = s.schedule := rfl
@[simp] theorem State.drawn_reg (j : Nibble) : (s.drawn).reg j = s.reg j := rfl
@[simp] theorem State.drawn_byteAt (a : Nat) : (s.drawn).byteAt a = s.byteAt a := rfl
@[simp] theorem State.drawn_pixel (r c : Nat) : (s.drawn).pixel r c = s.pixel r c := rfl

/-! ## setRun -/

@[simp] theorem State.setRun_v (r : RunState) : (s.setRun r).v = s.v := rfl
@[simp] theorem State.setRun_pc (r : RunState) : (s.setRun r).pc = s.pc := rfl
@[simp] theorem State.setRun_ireg (r : RunState) : (s.setRun r).ireg = s.ireg := rfl
@[simp] theorem State.setRun_stk (r : RunState) : (s.setRun r).stk = s.stk := rfl
@[simp] theorem State.setRun_dt (r : RunState) : (s.setRun r).dt = s.dt := rfl
@[simp] theorem State.setRun_st (r : RunState) : (s.setRun r).st = s.st := rfl
@[simp] theorem State.setRun_key (r : RunState) : (s.setRun r).key = s.key := rfl
@[simp] theorem State.setRun_mode (r : RunState) : (s.setRun r).mode = s.mode := rfl
@[simp] theorem State.setRun_fb (r : RunState) : (s.setRun r).fb = s.fb := rfl
@[simp] theorem State.setRun_dirty (r : RunState) : (s.setRun r).dirty = s.dirty := rfl
@[simp] theorem State.setRun_run (r : RunState) : (s.setRun r).run = r := rfl
@[simp] theorem State.setRun_wreg (r : RunState) : (s.setRun r).wreg = s.wreg := rfl
@[simp] theorem State.setRun_cf (r : RunState) : (s.setRun r).cf = s.cf := rfl
@[simp] theorem State.setRun_hf (r : RunState) : (s.setRun r).hf = s.hf := rfl
@[simp] theorem State.setRun_mem (r : RunState) : (s.setRun r).mem = s.mem := rfl
@[simp] theorem State.setRun_cfg (r : RunState) : (s.setRun r).cfg = s.cfg := rfl
@[simp] theorem State.setRun_reports (r : RunState) : (s.setRun r).reports = s.reports := rfl
@[simp] theorem State.setRun_draws (r : RunState) : (s.setRun r).draws = s.draws := rfl
@[simp] theorem State.setRun_schedule (r : RunState) : (s.setRun r).schedule = s.schedule := rfl
@[simp] theorem State.setRun_reg (r : RunState) (j : Nibble) : (s.setRun r).reg j = s.reg j := rfl
@[simp] theorem State.setRun_byteAt (r : RunState) (a : Nat) : (s.setRun r).byteAt a = s.byteAt a := rfl
@[simp] theorem State.setRun_pixel (r : RunState) (y c : Nat) : (s.setRun r).pixel y c = s.pixel y c := rfl

/-! ## advance -/

@[simp] theorem State.advance_v : (s.advance).v = s.v := rfl
@[simp] theorem State.advance_pc : (s.advance).pc = s.pc + 2#16 := rfl
@[simp] theorem State.advance_ireg : (s.advance).ireg = s.ireg := rfl
@[simp] theorem State.advance_stk : (s.advance).stk = s.stk := rfl
@[simp] theorem State.advance_dt : (s.advance).dt = s.dt := rfl
@[simp] theorem State.advance_st : (s.advance).st = s.st := rfl
@[simp] theorem State.advance_key : (s.advance).key = s.key := rfl
@[simp] theorem State.advance_mode : (s.advance).mode = s.mode := rfl
@[simp] theorem State.advance_fb : (s.advance).fb = s.fb := rfl
@[simp] theorem State.advance_dirty : (s.advance).dirty = s.dirty := rfl
@[simp] theorem State.advance_run : (s.advance).run = s.run := rfl
@[simp] theorem State.advance_wreg : (s.advance).wreg = s.wreg := rfl
@[simp] theorem State.advance_cf : (s.advance).cf = s.cf := rfl
@[simp] theorem State.advance_hf : (s.advance).hf = s.hf := rfl
@[simp] theorem State.advance_mem : (s.advance).mem = s.mem := rfl
@[simp] theorem State.advance_cfg : (s.advance).cfg = s.cfg := rfl
@[simp] theorem State.advance_reports : (s.advance).reports = s.reports := rfl
@[simp] theorem State.advance_draws : (s.advance).draws = s.draws := rfl
@[simp] theorem State.advance_schedule : (s.advance).schedule = s.schedule := rfl
@[simp] theorem State.advance_reg (j : Nibble) : (s.advance).reg j = s.reg j := rfl
@[simp] theorem State.advance_byteAt (a : Nat) : (s.advance).byteAt a = s.byteAt a := rfl
@[simp] theorem State.advance_pixel (r c : Nat) : (s.advance).pixel r c = s.pixel r c := rfl

/-! ## skip -/

@[simp] theorem State.skip_v : (s.skip).v = s.v := rfl
@[simp] theorem State.skip_pc : (s.skip).pc = s.pc + 4#16 := rfl
@[simp] theorem State.skip_ireg : (s.skip).ireg = s.ireg := rfl
@[simp] theorem State.skip_stk : (s.skip).stk = s.stk := rfl
@[simp] theorem State.skip_dt : (s.skip).dt = s.dt := rfl
@[simp] theorem State.skip_st : (s.skip).st = s.st := rfl
@[simp] theorem State.skip_key : (s.skip).key = s.key := rfl
@[simp] theorem State.skip_mode : (s.skip).mode = s.mode := rfl
@[simp] theorem State.skip_fb : (s.skip).fb = s.fb := rfl
@[simp] theorem State.skip_dirty : (s.skip).dirty = s.dirty := rfl
@[simp] theorem State.skip_run : (s.skip).run = s.run := rfl
@[simp] theorem State.skip_wreg : (s.skip).wreg = s.wreg := rfl
@[simp] theorem State.skip_cf : (s.skip).cf = s.cf := rfl
@[simp] theorem State.skip_hf : (s.skip).hf = s.hf := rfl
@[simp] theorem State.skip_mem : (s.skip).mem = s.mem := rfl
@[simp] theorem State.skip_cfg : (s.skip).cfg = s.cfg := rfl
@[simp] theorem State.skip_reports : (s.skip).reports = s.reports := rfl
@[simp] theorem State.skip_draws : (s.skip).draws = s.draws := rfl
@[simp] theorem State.skip_schedule : (s.skip).schedule = s.schedule := rfl
@[simp] theorem State.skip_reg (j : Nibble) : (s.skip).reg j = s.reg j := rfl
@[simp] theorem State.skip_byteAt (a : Nat) : (s.skip).byteAt a = s.byteAt a := rfl
@[simp] theorem State.skip_pixel (r c : Nat) : (s.skip).pixel r c = s.pixel r c := rfl

/-! ## Registers -/

/-- Reading a register after writing one. -/
theorem State.setReg_reg (i j : Nibble) (b : Byte) :
    (s.setReg i b).reg j = if j = i then b else s.reg j := by
  unfold State.reg State.setReg
  by_cases h : j = i
  · subst h; simp
  · have hn : i.toNat ≠ j.toNat := fun e => h (BitVec.eq_of_toNat_eq e.symm)
    simp [hn, h]

@[simp] theorem State.setReg_reg_same (i : Nibble) (b : Byte) : (s.setReg i b).reg i = b := by
  simp [State.setReg_reg]

theorem State.setReg_reg_ne {i j : Nibble} (b : Byte) (h : j ≠ i) : (s.setReg i b).reg j = s.reg j := by
  simp [State.setReg_reg, h]

/-- Two states with the same registers have the same register file. -/
theorem State.v_ext {s t : State} (h : ∀ j, t.reg j = s.reg j) : t.v = s.v := by
  apply Vector.ext
  intro i hi
  have := h (BitVec.ofNat 4 i)
  simpa [State.reg, Nat.mod_eq_of_lt hi] using this

/-- Writing the value a register holds changes nothing. -/
theorem State.setReg_self (i : Nibble) : s.setReg i (s.reg i) = s := by
  have h : (s.setReg i (s.reg i)).v = s.v := State.v_ext fun j => by
    by_cases e : j = i
    · subst e; simp
    · exact State.setReg_reg_ne s _ e
  unfold State.setReg at h ⊢
  simp only at h
  rw [h]

/-! ## Skips -/

/-- The one field a skip writes. -/
theorem State.skipIf_eq (b : Bool) : s.skipIf b = s.jump (s.pc + if b then 4#16 else 2#16) := by
  cases b <;> rfl

/-! ## Errors -/

/-- All that taking a ClassificationFailure does (R262). -/
theorem classificationFailure_eq (w : Word) :
    classificationFailure w s =
      { s with cf := true, reports := s.reports ++ [⟨.classificationFailure, w.toNat⟩], pc := s.pc + 2#16 } := rfl

/-- All that taking a HandlerFault does (R264). -/
theorem handlerFault_eq (c : Cause) (n : Nat) :
    handlerFault c n s = { s with hf := true, reports := s.reports ++ [⟨c, n⟩], pc := s.pc + 2#16 } := rfl

@[simp] theorem handlerFault_reg (c : Cause) (n : Nat) (j : Nibble) : (handlerFault c n s).reg j = s.reg j := rfl
@[simp] theorem handlerFault_byteAt (c : Cause) (n a : Nat) : (handlerFault c n s).byteAt a = s.byteAt a := rfl

/-! ## Flags -/

theorem State.setFlag_eq (f : Byte) : s.setFlag f = s.setReg flagReg f := rfl

/-- What the registers hold after a result and then a flag are written (R160): the flag survives. -/
theorem State.setRegThenFlag_reg (x j : Nibble) (r f : Byte) :
    (s.setRegThenFlag x r f).reg j = if j = flagReg then f else if j = x then r else s.reg j := by
  simp [State.setRegThenFlag, State.setFlag, State.setReg_reg]

/-- What the registers hold after a flag and then a shift result are written (R160): the result survives, and the source is
read after the flag. -/
theorem State.setFlagThenReg_reg (x src j : Nibble) (f : Byte) (g : Byte → Byte) :
    (s.setFlagThenReg x src f g).reg j =
      if j = x then g (if src = flagReg then f else s.reg src) else if j = flagReg then f else s.reg j := by
  simp [State.setFlagThenReg, State.setFlag, State.setReg_reg]

/-- Writing a result and a flag touches only the registers. -/
theorem State.setRegThenFlag_eq (x : Nibble) (r f : Byte) :
    s.setRegThenFlag x r f = { s with v := (s.setRegThenFlag x r f).v } := rfl

theorem State.setFlagThenReg_eq (x src : Nibble) (f : Byte) (g : Byte → Byte) :
    s.setFlagThenReg x src f g = { s with v := (s.setFlagThenReg x src f g).v } := rfl

theorem flagByte_eq_one (b : Bool) : flagByte b = 0x01#8 ↔ b = true := by cases b <;> decide
theorem flagByte_eq_zero (b : Bool) : flagByte b = 0x00#8 ↔ b = false := by cases b <;> decide

/-! ## Accesses at I -/

/-- The two outcomes of an instruction that touches bytes at I (R63). -/
theorem withBytesAtI_cases (count : Nat) (ok : State) :
    (s.ireg.toNat + count > memSize ∧ 0 < count ∧
      withBytesAtI count s ok = handlerFault .memRange (max s.ireg.toNat memSize) s) ∨
    ((count = 0 ∨ s.ireg.toNat + count ≤ memSize) ∧ withBytesAtI count s ok = ok) := by
  unfold withBytesAtI
  split
  · left; exact ⟨by omega, by omega, rfl⟩
  · right; exact ⟨by omega, rfl⟩

/-- Within memory the instruction has its own effect. -/
theorem withBytesAtI_inRange {count : Nat} {s : State} (ok : State)
    (h : count = 0 ∨ s.ireg.toNat + count ≤ memSize) : withBytesAtI count s ok = ok := by
  unfold withBytesAtI
  exact if_neg (by omega)

/-- Out of memory it raises MemRange and has no other effect. -/
theorem withBytesAtI_outOfRange {count : Nat} {s : State} (ok : State)
    (hc : 0 < count) (h : s.ireg.toNat + count > memSize) :
    withBytesAtI count s ok = handlerFault .memRange (max s.ireg.toNat memSize) s := by
  unfold withBytesAtI
  exact if_pos (by omega)

/-- What the auto-increment quirk does (R186, R187). -/
theorem autoIncrement_eq (x : Nibble) :
    autoIncrement x s =
      { s with ireg := if s.cfg.qLdst then s.ireg + BitVec.ofNat 16 (blockLength x) else s.ireg } := by
  unfold autoIncrement
  split <;> rfl

/-- The two outcomes of a skip on a key (R200, R201). -/
theorem skipOnKey_cases (k : Byte) (want : Bool) :
    (15 < k.toNat ∧ skipOnKey k want s = handlerFault .keyIndex k.toNat s) ∨
    (k.toNat ≤ 15 ∧ skipOnKey k want s = s.skipIf (s.keyDown k.toNat == want)) := by
  unfold skipOnKey
  split
  · left; exact ⟨by assumption, rfl⟩
  · right; exact ⟨by omega, rfl⟩

end Sys2Proof.Machine
end

