-- ==== Sys2Proof/Laws/Memory.lean ====
section
/-! SUPPORT. The laws of memory: a read after a write, and that every memory operation keeps the canonical form. -/

namespace Sys2Proof.Machine

variable (rom : List Byte)

/-! ## Reading after writing -/

theorem memRead_consCell (a k : Nat) (v : Byte) (m : List Host.Cell) :
    memRead rom (consCell rom a v m) k = if k = a then (if v = unlisted rom a then memRead rom m k else v)
      else memRead rom m k := by
  unfold consCell
  split <;> simp [memRead]

theorem memWfFrom_mono {lo lo' : Nat} {m : List Host.Cell} (h : memWfFrom rom lo m = true) (hl : lo' ≤ lo) :
    memWfFrom rom lo' m = true := by
  cases m with
  | nil => rfl
  | cons c m => simp [memWfFrom] at h ⊢; refine ⟨⟨⟨?_, ?_⟩, ?_⟩, ?_⟩ <;> first | omega | simp_all

/-- Below its first address a canonical memory reads as an unlisted one. -/
theorem memRead_below {lo a : Nat} {m : List Host.Cell} (h : memWfFrom rom lo m = true) (ha : a < lo) :
    memRead rom m a = unlisted rom a := by
  induction m generalizing lo with
  | nil => rfl
  | cons c m ih =>
    obtain ⟨b, u⟩ := c
    simp only [memWfFrom, Bool.and_eq_true, decide_eq_true_eq] at h
    rw [memRead, if_neg (by omega)]
    exact ih h.2 (by omega)

/-- A read after a write. -/
theorem memRead_memWrite {lo : Nat} {m : List Host.Cell} (h : memWfFrom rom lo m = true) (a k : Nat) (v : Byte) :
    memRead rom (memWrite rom m a v) k = if k = a then v else memRead rom m k := by
  induction m generalizing lo with
  | nil =>
    simp only [memWrite, memRead_consCell, memRead]
    split <;> simp_all
  | cons c m ih =>
    obtain ⟨b, u⟩ := c
    have hm := h
    simp only [memWfFrom, Bool.and_eq_true, decide_eq_true_eq] at h
    rw [memWrite]
    split
    · rename_i hab
      rw [memRead_consCell]
      split
      · subst_vars
        split
        · rename_i hv
          rw [memRead_below rom (lo := b) (by simpa [memWfFrom] using ⟨⟨h.1.1.2, by simpa using h.1.2⟩, h.2⟩) hab, hv]
        · rfl
      · rfl
    · split
      · rename_i hab
        subst hab
        rw [memRead_consCell]
        split
        · subst_vars
          split
          · rename_i hv
            rw [memRead_below rom h.2 (by omega), hv]
          · rfl
        · rw [memRead, if_neg (by assumption)]
      · rw [memRead, memRead, ih h.2]
        split
        · rw [if_neg (by omega)]
        · rfl

/-! ## The canonical form -/

theorem memWfFrom_consCell {lo a : Nat} (v : Byte) {m : List Host.Cell} (h : memWfFrom rom (a + 1) m = true)
    (hl : lo ≤ a) (ha : a < memSize) : memWfFrom rom lo (consCell rom a v m) = true := by
  unfold consCell
  split
  · exact memWfFrom_mono rom h (by omega)
  · simp_all [memWfFrom]

theorem memWfFrom_memWrite {lo a : Nat} (v : Byte) {m : List Host.Cell} (h : memWfFrom rom lo m = true)
    (hl : lo ≤ a) (ha : a < memSize) : memWfFrom rom lo (memWrite rom m a v) = true := by
  induction m generalizing lo with
  | nil => exact memWfFrom_consCell rom v (by rfl) hl ha
  | cons c m ih =>
    obtain ⟨b, u⟩ := c
    have hm := h
    simp only [memWfFrom, Bool.and_eq_true, decide_eq_true_eq] at h
    rw [memWrite]
    split
    · refine memWfFrom_consCell rom v ?_ hl ha
      simpa [memWfFrom] using ⟨⟨⟨by omega, h.1.1.2⟩, by simpa using h.1.2⟩, h.2⟩
    · split
      · subst_vars
        exact memWfFrom_consCell rom v h.2 hl ha
      · simpa [memWfFrom] using ⟨⟨⟨h.1.1.1, h.1.1.2⟩, by simpa using h.1.2⟩, ih h.2 (by omega)⟩

/-- A write keeps the canonical form. -/
theorem memWf_memWrite {a : Nat} (v : Byte) {m : List Host.Cell} (h : memWf rom m = true) (ha : a < memSize) :
    memWf rom (memWrite rom m a v) = true :=
  memWfFrom_memWrite rom v h (Nat.zero_le _) ha

theorem memWfFrom_imageCells (a : Nat) (bs : List Byte) (h : a + bs.length ≤ memSize) :
    memWfFrom rom a (imageCells rom a bs) = true := by
  induction bs generalizing a with
  | nil => rfl
  | cons b bs ih =>
    simp only [List.length_cons] at h
    exact memWfFrom_consCell rom b (ih (a + 1) (by omega)) (Nat.le_refl _) (by omega)

/-- A loaded program is in canonical form. -/
theorem memWf_loadProgram (program : List Byte) : memWf rom (loadProgram rom program) = true := by
  refine memWfFrom_mono rom (memWfFrom_imageCells rom progBase _ ?_) (Nat.zero_le _)
  simp only [List.length_take, progBase, progMax, memSize]
  omega

/-- Reading a loaded image. -/
theorem memRead_imageCells (a k : Nat) (bs : List Byte) :
    memRead rom (imageCells rom a bs) k =
      if h : a ≤ k ∧ k < a + bs.length then bs[k - a]'(by omega) else unlisted rom k := by
  induction bs generalizing a with
  | nil => simp [imageCells, memRead]
  | cons b bs ih =>
    rw [imageCells, memRead_consCell, ih]
    by_cases e : k = a
    · subst e
      simp
      intro hb
      exact hb.symm
    · rw [if_neg e]
      by_cases h : a ≤ k ∧ k < a + (b :: bs).length
      · have h' : a + 1 ≤ k ∧ k < a + 1 + bs.length := by simp at h; omega
        rw [dif_pos h, dif_pos h']
        have : k - a = (k - (a + 1)) + 1 := by omega
        simp [this]
      · have h' : ¬(a + 1 ≤ k ∧ k < a + 1 + bs.length) := by simp at h; omega
        rw [dif_neg h, dif_neg h']

/-! ## The state's memory -/

variable (s : State)

theorem State.setByte_eq (a : Nat) (b : Byte) : s.setByte a b = { s with mem := (s.setByte a b).mem } := by
  unfold State.setByte
  split <;> rfl

@[simp] theorem State.setByte_cfg (a : Nat) (b : Byte) : (s.setByte a b).cfg = s.cfg := by rw [State.setByte_eq]
@[simp] theorem State.setByte_ireg (a : Nat) (b : Byte) : (s.setByte a b).ireg = s.ireg := by rw [State.setByte_eq]
@[simp] theorem State.setByte_pc (a : Nat) (b : Byte) : (s.setByte a b).pc = s.pc := by rw [State.setByte_eq]

/-- Storing a byte keeps the canonical form. -/
theorem State.setByte_memWf (a : Nat) (b : Byte) (h : memWf s.cfg.fontRom s.mem = true) :
    memWf (s.setByte a b).cfg.fontRom (s.setByte a b).mem = true := by
  rw [State.setByte_cfg]
  unfold State.setByte
  split
  · exact memWf_memWrite _ b h (by assumption)
  · exact h

/-- Reading a byte after storing one. -/
theorem State.setByte_byteAt {a : Nat} (b : Byte) (k : Nat) (h : memWf s.cfg.fontRom s.mem = true) (ha : a < memSize) :
    (s.setByte a b).byteAt k = if k = a then b else s.byteAt k := by
  unfold State.setByte
  rw [if_pos ha]
  exact memRead_memWrite _ h a k b

/-- Storing bytes writes nothing but memory. -/
theorem State.setBytes_eq (a : Nat) (bs : List Byte) :
    s.setBytes a bs = { s with mem := (s.setBytes a bs).mem } := by
  induction bs generalizing s a with
  | nil => rfl
  | cons b bs ih =>
    rw [State.setBytes, ih, State.setByte_eq]

@[simp] theorem State.setBytes_cfg (a : Nat) (bs : List Byte) : (s.setBytes a bs).cfg = s.cfg := by
  rw [State.setBytes_eq]

/-- Storing bytes keeps the canonical form. -/
theorem State.setBytes_memWf (a : Nat) (bs : List Byte) (h : memWf s.cfg.fontRom s.mem = true) :
    memWf (s.setBytes a bs).cfg.fontRom (s.setBytes a bs).mem = true := by
  induction bs generalizing s a with
  | nil => exact h
  | cons b bs ih => exact ih _ _ (s.setByte_memWf a b h)

/-- Reading a byte after storing several: the stored byte inside them, the old byte outside. -/
theorem State.setBytes_byteAt (a k : Nat) (bs : List Byte) (h : memWf s.cfg.fontRom s.mem = true)
    (hr : a + bs.length ≤ memSize) :
    (s.setBytes a bs).byteAt k =
      if hk : a ≤ k ∧ k < a + bs.length then bs[k - a]'(by omega) else s.byteAt k := by
  induction bs generalizing s a with
  | nil => simp [State.setBytes]
  | cons b bs ih =>
    simp only [List.length_cons] at hr
    rw [State.setBytes, ih _ _ (s.setByte_memWf a b h) (by omega), s.setByte_byteAt b k h (by omega)]
    by_cases e : k = a
    · subst e; simp
    · rw [if_neg e]
      by_cases hk : a ≤ k ∧ k < a + (b :: bs).length
      · have h' : a + 1 ≤ k ∧ k < a + 1 + bs.length := by simp at hk; omega
        rw [dif_pos hk, dif_pos h']
        have : k - a = (k - (a + 1)) + 1 := by omega
        simp [this]
      · have h' : ¬(a + 1 ≤ k ∧ k < a + 1 + bs.length) := by simp at hk; omega
        rw [dif_neg hk, dif_neg h']

/-- Loading registers writes nothing but registers. -/
theorem State.loadRegs_eq (base k : Nat) : State.loadRegs base k s = { s with v := (State.loadRegs base k s).v } := by
  induction k with
  | zero => rfl
  | succ k ih =>
    rw [State.loadRegs, ih]
    rfl

@[simp] theorem State.loadRegs_cfg (base k : Nat) : (State.loadRegs base k s).cfg = s.cfg := by
  rw [State.loadRegs_eq]

@[simp] theorem State.loadRegs_ireg (base k : Nat) : (State.loadRegs base k s).ireg = s.ireg := by
  rw [State.loadRegs_eq]

@[simp] theorem State.setBytes_ireg (a : Nat) (bs : List Byte) : (s.setBytes a bs).ireg = s.ireg := by
  rw [State.setBytes_eq]

/-- What the registers hold after a load of V[0] to V[k-1] (R187). -/
theorem State.loadRegs_reg (base k : Nat) (hk : k ≤ 16) (j : Nibble) :
    (State.loadRegs base k s).reg j = if j.toNat < k then s.byteAt (base + j.toNat) else s.reg j := by
  induction k with
  | zero => simp [State.loadRegs]
  | succ k ih =>
    rw [State.loadRegs, State.setReg_reg, ih (by omega)]
    by_cases e : j = BitVec.ofNat 4 k
    · have : j.toNat = k := by rw [e]; simp; omega
      rw [if_pos e, if_pos (by omega), this]
    · have : j.toNat ≠ k := fun h => e (by apply BitVec.eq_of_toNat_eq; simp; omega)
      rw [if_neg e]
      by_cases h : j.toNat < k
      · rw [if_pos h, if_pos (by omega)]
      · rw [if_neg h, if_neg (by omega)]

end Sys2Proof.Machine
end

