-- ==== Sys2Proof/Laws/PerInstr.lean ====
section
/-! SUPPORT. Facts about every instruction as syntax, one lemma per constructor. KeyBits: the canonical word, under its
family's mask, is the instruction's canonical id (30_encoding.md rules R95, R96). -/

namespace Sys2Proof.Laws

/-- The instruction's canonical word looks up its own key in its own family (R96, R111). -/
def KeyBits.Statement (i : Instr) : Prop :=
  ∀ k, keyScuOk k = true → encode k i &&& i.family.mask = i.id k

theorem KeyBits.cls : KeyBits.Statement .cls :=
  fun _ _ => (and_mask_f1 _ _ _ _).trans rfl

theorem KeyBits.ret : KeyBits.Statement .ret :=
  fun _ _ => (and_mask_f1 _ _ _ _).trans rfl

theorem KeyBits.scr : KeyBits.Statement .scr :=
  fun _ _ => (and_mask_f1 _ _ _ _).trans rfl

theorem KeyBits.scl : KeyBits.Statement .scl :=
  fun _ _ => (and_mask_f1 _ _ _ _).trans rfl

theorem KeyBits.exit : KeyBits.Statement .exit :=
  fun _ _ => (and_mask_f1 _ _ _ _).trans rfl

theorem KeyBits.low : KeyBits.Statement .low :=
  fun _ _ => (and_mask_f1 _ _ _ _).trans rfl

theorem KeyBits.high : KeyBits.Statement .high :=
  fun _ _ => (and_mask_f1 _ _ _ _).trans rfl

theorem KeyBits.skp (x : Nibble) : KeyBits.Statement (.skp x) :=
  fun _ _ => (and_mask_f1 _ _ _ _).trans rfl

theorem KeyBits.sknp (x : Nibble) : KeyBits.Statement (.sknp x) :=
  fun _ _ => (and_mask_f1 _ _ _ _).trans rfl

theorem KeyBits.ldVxDt (x : Nibble) : KeyBits.Statement (.ldVxDt x) :=
  fun _ _ => (and_mask_f1 _ _ _ _).trans rfl

theorem KeyBits.ldVxK (x : Nibble) : KeyBits.Statement (.ldVxK x) :=
  fun _ _ => (and_mask_f1 _ _ _ _).trans rfl

theorem KeyBits.ldDtVx (x : Nibble) : KeyBits.Statement (.ldDtVx x) :=
  fun _ _ => (and_mask_f1 _ _ _ _).trans rfl

theorem KeyBits.ldStVx (x : Nibble) : KeyBits.Statement (.ldStVx x) :=
  fun _ _ => (and_mask_f1 _ _ _ _).trans rfl

theorem KeyBits.addIVx (x : Nibble) : KeyBits.Statement (.addIVx x) :=
  fun _ _ => (and_mask_f1 _ _ _ _).trans rfl

theorem KeyBits.ldFVx (x : Nibble) : KeyBits.Statement (.ldFVx x) :=
  fun _ _ => (and_mask_f1 _ _ _ _).trans rfl

theorem KeyBits.ldHfVx (x : Nibble) : KeyBits.Statement (.ldHfVx x) :=
  fun _ _ => (and_mask_f1 _ _ _ _).trans rfl

theorem KeyBits.ldBVx (x : Nibble) : KeyBits.Statement (.ldBVx x) :=
  fun _ _ => (and_mask_f1 _ _ _ _).trans rfl

theorem KeyBits.ldMemVx (x : Nibble) : KeyBits.Statement (.ldMemVx x) :=
  fun _ _ => (and_mask_f1 _ _ _ _).trans rfl

theorem KeyBits.ldVxMem (x : Nibble) : KeyBits.Statement (.ldVxMem x) :=
  fun _ _ => (and_mask_f1 _ _ _ _).trans rfl

theorem KeyBits.ldRVx (x : Nibble) : KeyBits.Statement (.ldRVx x) :=
  fun _ _ => (and_mask_f1 _ _ _ _).trans rfl

theorem KeyBits.ldVxR (x : Nibble) : KeyBits.Statement (.ldVxR x) :=
  fun _ _ => (and_mask_f1 _ _ _ _).trans rfl

theorem KeyBits.seVxVy (x y : Nibble) : KeyBits.Statement (.seVxVy x y) :=
  fun _ _ => (and_mask_f2 _ _ _ _).trans rfl

theorem KeyBits.ldVxVy (x y : Nibble) : KeyBits.Statement (.ldVxVy x y) :=
  fun _ _ => (and_mask_f2 _ _ _ _).trans rfl

theorem KeyBits.orVxVy (x y : Nibble) : KeyBits.Statement (.orVxVy x y) :=
  fun _ _ => (and_mask_f2 _ _ _ _).trans rfl

theorem KeyBits.andVxVy (x y : Nibble) : KeyBits.Statement (.andVxVy x y) :=
  fun _ _ => (and_mask_f2 _ _ _ _).trans rfl

theorem KeyBits.xorVxVy (x y : Nibble) : KeyBits.Statement (.xorVxVy x y) :=
  fun _ _ => (and_mask_f2 _ _ _ _).trans rfl

theorem KeyBits.addVxVy (x y : Nibble) : KeyBits.Statement (.addVxVy x y) :=
  fun _ _ => (and_mask_f2 _ _ _ _).trans rfl

theorem KeyBits.subVxVy (x y : Nibble) : KeyBits.Statement (.subVxVy x y) :=
  fun _ _ => (and_mask_f2 _ _ _ _).trans rfl

theorem KeyBits.shrVxVy (x y : Nibble) : KeyBits.Statement (.shrVxVy x y) :=
  fun _ _ => (and_mask_f2 _ _ _ _).trans rfl

theorem KeyBits.subnVxVy (x y : Nibble) : KeyBits.Statement (.subnVxVy x y) :=
  fun _ _ => (and_mask_f2 _ _ _ _).trans rfl

theorem KeyBits.shlVxVy (x y : Nibble) : KeyBits.Statement (.shlVxVy x y) :=
  fun _ _ => (and_mask_f2 _ _ _ _).trans rfl

theorem KeyBits.sneVxVy (x y : Nibble) : KeyBits.Statement (.sneVxVy x y) :=
  fun _ _ => (and_mask_f2 _ _ _ _).trans rfl

theorem KeyBits.jp (nnn : Addr12) : KeyBits.Statement (.jp nnn) :=
  fun _ _ => (congrArg (· &&& Family.f3.mask) (wordOfAddr_eq _ _)).trans ((and_mask_f3 _ _ _ _).trans rfl)

theorem KeyBits.call (nnn : Addr12) : KeyBits.Statement (.call nnn) :=
  fun _ _ => (congrArg (· &&& Family.f3.mask) (wordOfAddr_eq _ _)).trans ((and_mask_f3 _ _ _ _).trans rfl)

theorem KeyBits.seVxKk (x : Nibble) (kk : Byte) : KeyBits.Statement (.seVxKk x kk) :=
  fun _ _ => (congrArg (· &&& Family.f3.mask) (wordOfImm_eq _ _ _)).trans ((and_mask_f3 _ _ _ _).trans rfl)

theorem KeyBits.sneVxKk (x : Nibble) (kk : Byte) : KeyBits.Statement (.sneVxKk x kk) :=
  fun _ _ => (congrArg (· &&& Family.f3.mask) (wordOfImm_eq _ _ _)).trans ((and_mask_f3 _ _ _ _).trans rfl)

theorem KeyBits.ldVxKk (x : Nibble) (kk : Byte) : KeyBits.Statement (.ldVxKk x kk) :=
  fun _ _ => (congrArg (· &&& Family.f3.mask) (wordOfImm_eq _ _ _)).trans ((and_mask_f3 _ _ _ _).trans rfl)

theorem KeyBits.addVxKk (x : Nibble) (kk : Byte) : KeyBits.Statement (.addVxKk x kk) :=
  fun _ _ => (congrArg (· &&& Family.f3.mask) (wordOfImm_eq _ _ _)).trans ((and_mask_f3 _ _ _ _).trans rfl)

theorem KeyBits.ldINnn (nnn : Addr12) : KeyBits.Statement (.ldINnn nnn) :=
  fun _ _ => (congrArg (· &&& Family.f3.mask) (wordOfAddr_eq _ _)).trans ((and_mask_f3 _ _ _ _).trans rfl)

theorem KeyBits.jpV0 (nnn : Addr12) : KeyBits.Statement (.jpV0 nnn) :=
  fun _ _ => (congrArg (· &&& Family.f3.mask) (wordOfAddr_eq _ _)).trans ((and_mask_f3 _ _ _ _).trans rfl)

theorem KeyBits.rnd (x : Nibble) (kk : Byte) : KeyBits.Statement (.rnd x kk) :=
  fun _ _ => (congrArg (· &&& Family.f3.mask) (wordOfImm_eq _ _ _)).trans ((and_mask_f3 _ _ _ _).trans rfl)

theorem KeyBits.drw (x y n : Nibble) : KeyBits.Statement (.drw x y n) :=
  fun _ _ => (and_mask_f3 _ _ _ _).trans rfl

theorem KeyBits.scd (n : Nibble) : KeyBits.Statement (.scd n) :=
  fun _ _ => (and_mask_f4 _ _ _ _).trans rfl

theorem KeyBits.scu (n : Nibble) : KeyBits.Statement (.scu n) := by
  intro _ h; rw [encode_scu h, Instr.family, and_mask_f4]; exact (keyScuOk_nibble h).1.symm

end Sys2Proof.Laws
end

