-- ==== Sys2Proof/Laws/Step.lean ====
section
/-! SUPPORT. Which event a step runs, and what each event can do, said once per event. -/

namespace Sys2Proof.Machine

variable (s : State)

/-- With nothing scheduled the step is a Step event. -/
theorem step_of_nil {s : State} (h : s.schedule = []) : step s = stepEvent s := by
  unfold step nextEvent
  rw [h]
  rfl

/-- With an event scheduled the step is that event, in the state without it. -/
theorem step_of_cons {s : State} {e : Event} {rest : List Event} (h : s.schedule = e :: rest) :
    step s = runEvent e { s with schedule := rest } := by
  unfold step nextEvent
  rw [h]

/-- A Step changes nothing outside RUNNING (R276). -/
theorem stepEvent_idle {s : State} (h : s.run ≠ .running) : stepEvent s = .next s := by
  unfold stepEvent
  cases e : s.run <;> simp_all

/-- A Step in RUNNING fetches and executes (R276). -/
theorem stepEvent_running {s : State} (h : s.run = .running) : stepEvent s = fetchAndExec s := by
  unfold stepEvent
  rw [h]

/-- The three ways fetch and classification go on (R64, R94, R262). -/
theorem fetchAndExec_cases :
    (memSize ≤ s.pc.toNat + 1 ∧ fetchAndExec s = .next (handlerFault .fetchRange s.pc.toNat s)) ∨
    (s.pc.toNat + 1 < memSize ∧ ∃ i, decodeWord s.cfg.keyScu (s.wordAt s.pc.toNat) = .ok i ∧ fetchAndExec s = exec i s) ∨
    (s.pc.toNat + 1 < memSize ∧ ∃ e, decodeWord s.cfg.keyScu (s.wordAt s.pc.toNat) = .error e ∧
      fetchAndExec s = .next (classificationFailure (s.wordAt s.pc.toNat) s)) := by
  unfold fetchAndExec
  by_cases h : s.pc.toNat + 1 ≥ memSize
  · exact Or.inl ⟨h, by rw [if_pos h]⟩
  · rw [if_neg h]
    cases e : decodeWord s.cfg.keyScu (s.wordAt s.pc.toNat) with
    | ok i => exact Or.inr (Or.inl ⟨by omega, i, rfl, rfl⟩)
    | error x => exact Or.inr (Or.inr ⟨by omega, x, rfl, rfl⟩)

/-- Everything a Tick changes (R281). -/
theorem tickEvent_eq : tickEvent s = { s with dt := (tickEvent s).dt, st := (tickEvent s).st } := by
  unfold tickEvent
  split <;> rfl

/-- One tick of a timer, as a natural number (R281). -/
theorem tickTimer_toNat (b : Byte) : (tickTimer b).toNat = b.toNat - 1 := by
  unfold tickTimer
  split
  · rw [BitVec.toNat_sub_of_le (by rw [BitVec.le_def]; simp; omega)]
    rfl
  · omega

/-- Everything a Present changes (R284). -/
theorem presentEvent_eq : presentEvent s = { s with dirty := false } := by
  unfold presentEvent
  cases h : s.dirty
  · cases s
    simp_all
  · rfl

/-- Everything a Shutdown changes (R285). -/
theorem shutdownEvent_eq : shutdownEvent s = { s with run := .halted } := by
  unfold shutdownEvent
  cases h : s.run
  · rfl
  · rfl
  · cases s
    simp_all

/-- A key is fresh iff it is 1 in the new snapshot and 0 in the old (R282). -/
theorem mem_freshKeys (old new : BitVec 16) (k : Nat) :
    k ∈ freshKeys old new ↔ k < 16 ∧ new.getLsbD k = true ∧ old.getLsbD k = false := by
  simp [freshKeys]

/-- The two ways a KeypadWrite goes on: the wait ends with a fresh key, or KEY alone changes (R282). -/
theorem keypadEvent_cases (snapshot : BitVec 16) :
    (∃ k ks, s.run = .awaitingKey ∧ freshKeys s.key snapshot = k :: ks ∧
      keypadEvent snapshot s = wakeUp k { s with key := snapshot }) ∨
    ((s.run = .awaitingKey → freshKeys s.key snapshot = []) ∧ keypadEvent snapshot s = { s with key := snapshot }) := by
  unfold keypadEvent
  cases h : s.run
  · exact Or.inr ⟨by simp, rfl⟩
  · cases e : freshKeys s.key snapshot with
    | nil => exact Or.inr ⟨fun _ => rfl, rfl⟩
    | cons k ks => exact Or.inl ⟨k, ks, rfl, rfl, rfl⟩
  · exact Or.inr ⟨by simp, rfl⟩

end Sys2Proof.Machine
end

