-- ==== Sys2Proof/Laws/Text.lean ====
section
/-! SUPPORT. Reading undoes writing for each piece of a text: digits, operands, mnemonics, and the cut at a separator. -/

namespace Sys2Proof.Machine

@[simp] theorem readHex_hexChar (d : Nibble) : readHex (hexChar d) = some d := by revert d; decide

/-- No hex digit is a separator or a letter that begins another operand. -/
theorem hexChar_ne (d : Nibble) : hexChar d ≠ ' ' ∧ hexChar d ≠ ',' ∧ hexChar d ≠ 'x' ∧ hexChar d ≠ 'V' := by
  revert d; decide

@[simp] theorem readHexes_hexChars8 (b : Byte) :
    readHexes (hexChars8 b) = some [b.extractLsb' 4 4, b.extractLsb' 0 4] := by
  simp [readHexes, hexChars8]

@[simp] theorem readHexes_hexChars12 (a : Addr12) :
    readHexes (hexChars12 a) = some [a.extractLsb' 8 4, a.extractLsb' 4 4, a.extractLsb' 0 4] := by
  simp [readHexes, hexChars12]

@[simp] theorem readHexes_hexChars16 (w : Word) :
    readHexes (hexChars16 w) =
      some [w.extractLsb' 12 4, w.extractLsb' 8 4, w.extractLsb' 4 4, w.extractLsb' 0 4] := by
  simp [readHexes, hexChars16]

/-- A number's text begins with 0, so it is no register's. -/
theorem readReg_zero (cs : List Char) : readReg ('0' :: cs) = none := by simp [readReg]

/-- A text that begins with 0x is a number. -/
theorem readNumber_hex (cs : List Char) : readNumber ('0' :: 'x' :: cs) = (readHexes cs).bind operandOfHex := rfl

theorem readOperand_reg (x : Nibble) : readOperand (Operand.reg x).chars = some (.reg x) := by revert x; decide
theorem readOperand_nib (n : Nibble) : readOperand (Operand.nib n).chars = some (.nib n) := by revert n; decide
theorem readOperand_name (l : OperandName) : readOperand (Operand.name l).chars = some (.name l) := by cases l <;> decide

theorem readOperand_imm (kk : Byte) : readOperand (Operand.imm kk).chars = some (.imm kk) := by
  simp only [Operand.chars, readOperand, readReg_zero, readNumber_hex, readHexes_hexChars8, Option.bind_some, operandOfHex,
    Option.orElse_none, Option.orElse_some, ← byte_eq_nibbles]

theorem readOperand_addr (nnn : Addr12) : readOperand (Operand.addr nnn).chars = some (.addr nnn) := by
  simp only [Operand.chars, readOperand, readReg_zero, readNumber_hex, readHexes_hexChars12, Option.bind_some, operandOfHex,
    Option.orElse_none, Option.orElse_some, ← addr_eq_nibbles]

theorem readOperand_word (w : Word) : readOperand (Operand.word w).chars = some (.word w) := by
  simp only [Operand.chars, readOperand, readReg_zero, readNumber_hex, readHexes_hexChars16, Option.bind_some, operandOfHex,
    Option.orElse_none, Option.orElse_some, ← word_eq_nibbles]

/-- Reading an operand's spelling gives the operand. -/
@[simp] theorem readOperand_chars (o : Operand) : readOperand o.chars = some o := by
  cases o with
  | reg x => exact readOperand_reg x
  | addr a => exact readOperand_addr a
  | imm k => exact readOperand_imm k
  | nib n => exact readOperand_nib n
  | word w => exact readOperand_word w
  | name l => exact readOperand_name l

/-- Reading a mnemonic's spelling gives the mnemonic. -/
@[simp] theorem readMnemonic_chars (m : Mnemonic) : readMnemonic m.chars = some m := by cases m <;> decide

/-- No mnemonic holds a space. -/
theorem Mnemonic.chars_noSpace (m : Mnemonic) : ' ' ∉ m.chars := by cases m <;> decide

/-- No operand holds a comma. -/
theorem Operand.chars_noComma (o : Operand) : ',' ∉ o.chars := by
  cases o with
  | reg x => revert x; decide
  | nib n => revert n; decide
  | name l => cases l <;> decide
  | addr a => simp [Operand.chars, hexChars12, (hexChar_ne _).2.1.symm]
  | imm k => simp [Operand.chars, hexChars8, (hexChar_ne _).2.1.symm]
  | word w => simp [Operand.chars, hexChars16, (hexChar_ne _).2.1.symm]

/-- A text without the separator is not cut. -/
theorem cutAt_none {sep : Char} {l : List Char} (h : sep ∉ l) : cutAt sep l = (l, none) := by
  induction l with
  | nil => rfl
  | cons c l ih =>
    simp only [List.mem_cons, not_or] at h
    simp [cutAt, ih h.2, Ne.symm h.1]

/-- A text is cut at the first separator. -/
theorem cutAt_some {sep : Char} {l : List Char} (rest : List Char) (h : sep ∉ l) :
    cutAt sep (l ++ sep :: rest) = (l, some rest) := by
  induction l with
  | nil => simp [cutAt]
  | cons c l ih =>
    simp only [List.mem_cons, not_or] at h
    simp [cutAt, ih h.2, Ne.symm h.1]

/-- What an item's parts say is the item: the two tables of R119 agree. -/
@[simp] theorem itemOf_itemParts (a : AsmItem) : itemOf (itemParts a).1 (itemParts a).2 = some a := by
  cases a with
  | data w => rfl
  | instr i => cases i <;> rfl

end Sys2Proof.Machine
end

