-- ==== Sys2Proof/Tests/Slice0.lean ====
section
/-! SUPPORT. Tests of one step on small states; the expected results are the rows of spec/95_test_vectors.md, whose ids the
names carry. Then, for every obligation that has hypotheses, states and operands that meet them. -/

namespace Sys2Proof.Tests

-- One theorem after the other: each of these proofs is small, but a thread for each at once is not.
set_option Elab.async false

open Sys2Proof Sys2Proof.Machine

/-! ## Helpers -/

/-- The reset state with some registers set. -/
def withRegs (l : List (Nibble × Byte)) : State := l.foldl (fun s p => s.setReg p.1 p.2) State.reset

/-- What `f` reads in the state after one event, if the step answers one. -/
def seen {α : Type} (s : State) (f : State → α) : Option α :=
  match step s with
  | .next t => some (f t)
  | .fault _ => none
  | .refused _ => none

/-- What `f` reads after the Step that runs the word `w`. -/
def ran {α : Type} (w : Nat) (s : State) (f : State → α) : Option α := seen (s.withFetchWord 16 w) f

/-- Some registers of a state. -/
def regs (l : List Nibble) (s : State) : List Byte := l.map s.reg

/-- The places (row, column) of the pixels that are on. -/
def lit (s : State) : List (Nat × Nat) :=
  (List.range s.mode.height).flatMap fun r =>
    (List.range s.mode.width).filterMap fun c => if s.pixel r c == 0xFF#8 then some (r, c) else none

/-- A state in mode `m` with just these pixels (row, column) on. -/
def withPixels (m : Mode) (l : List (Nat × Nat)) (s : State) : State :=
  { s with mode := m, fb := l.foldl (fun fb p => fbXor fb p.2 p.1) (blankFb m) }

/-- The state with a quirk setting. -/
def withQuirks (qShift qLdst qWrap : Bool) (s : State) : State :=
  { s with cfg := { s.cfg with qShift := qShift, qLdst := qLdst, qWrap := qWrap } }

/-- The state with the glyph "0" at 0x300 and I there. -/
def withGlyph (s : State) : State :=
  { s.setBytes 0x300 [0xF0#8, 0x90#8, 0x90#8, 0x90#8, 0xF0#8] with ireg := 0x300#16 }

/-- The set of keys as a snapshot. -/
def keys (l : List Nat) : BitVec 16 := l.foldl (fun b k => b ||| (1#16 <<< k)) 0#16

/-- What errors show: CF, HF, the reports. -/
def errors (s : State) : Bool × Bool × List Report := (s.cf, s.hf, s.reports)

/-! ## Well-formedness: each check refuses an ill-formed term -/

/-- R104: X is not E. -/
theorem test_wf_keyScu_E : keyScuOk 0x00E0#16 = false := by decide
/-- R104: X is not C. -/
theorem test_wf_keyScu_C : keyScuOk 0x00C0#16 = false := by decide
/-- R104: of the form 0x00X0. -/
theorem test_wf_keyScu_form : keyScuOk 0x00B1#16 = false ∧ keyScuOk 0x10B0#16 = false := by decide
/-- R104: the default and its neighbour pass. -/
theorem test_wf_keyScu_ok : keyScuOk 0x00B0#16 = true ∧ keyScuOk 0x00D0#16 = true := by decide
/-- R8: a positive natural number or unbounded. -/
theorem test_wf_depth : Config.wellFormed { defaultConfig with stackDepth := some 0 } = false ∧
    Config.wellFormed { defaultConfig with stackDepth := none } = true := by decide +kernel
/-- R9: 256 bytes. -/
theorem test_wf_rom : Config.wellFormed { defaultConfig with fontRom := fontLow } = false := by decide +kernel
/-- R104, as a Config. -/
theorem test_wf_cfgKey : Config.wellFormed { defaultConfig with keyScu := 0x00C0#16 } = false := by decide +kernel
/-- 00FB is SCR, whatever KEY_SCU is (R94, R98). -/
theorem test_wf_scu : Instr.wellFormed 0x00F0#16 (.scu 0xB#4) = false ∧ Instr.wellFormed 0x00F0#16 (.scu 0xA#4) = true ∧
    Instr.wellFormed defaultKeyScu (.scu 0xF#4) = true := by decide

/-! ## Decoding: words written out from 30_encoding.md and 95_test_vectors.md 2.1, every constructor once -/

/-- S1, rule R98. -/
theorem test_decode_family1 :
    [0x00E0, 0x00EE, 0x00FB, 0x00FC, 0x00FD, 0x00FE, 0x00FF, 0xE19E, 0xE1A1, 0xF107, 0xF10A].map (decodeTableWord 16) =
      [some .cls, some .ret, some .scr, some .scl, some .exit, some .low, some .high, some (.skp 1#4), some (.sknp 1#4),
        some (.ldVxDt 1#4), some (.ldVxK 1#4)] := by decide +kernel
theorem test_decode_family1' :
    [0xF115, 0xF118, 0xF11E, 0xF129, 0xF130, 0xF133, 0xF155, 0xF165, 0xF175, 0xF185].map (decodeTableWord 16) =
      [some (.ldDtVx 1#4), some (.ldStVx 1#4), some (.addIVx 1#4), some (.ldFVx 1#4), some (.ldHfVx 1#4), some (.ldBVx 1#4),
        some (.ldMemVx 1#4), some (.ldVxMem 1#4), some (.ldRVx 1#4), some (.ldVxR 1#4)] := by decide +kernel
/-- S2, rule R100. -/
theorem test_decode_family2 :
    [0x5AB0, 0x8AB0, 0x8AB1, 0x8AB2, 0x8AB3, 0x8AB4, 0x8AB5, 0x8AB6, 0x8AB7, 0x8ABE, 0x9AB0].map (decodeTableWord 16) =
      [some (.seVxVy 0xA#4 0xB#4), some (.ldVxVy 0xA#4 0xB#4), some (.orVxVy 0xA#4 0xB#4), some (.andVxVy 0xA#4 0xB#4),
        some (.xorVxVy 0xA#4 0xB#4), some (.addVxVy 0xA#4 0xB#4), some (.subVxVy 0xA#4 0xB#4), some (.shrVxVy 0xA#4 0xB#4),
        some (.subnVxVy 0xA#4 0xB#4), some (.shlVxVy 0xA#4 0xB#4), some (.sneVxVy 0xA#4 0xB#4)] := by decide +kernel
/-- S3, rule R101. -/
theorem test_decode_family3 :
    [0x12C0, 0x2ABC, 0x3A7F, 0x4A7F, 0x6A7F, 0x7A7F, 0xA300, 0xBBBB, 0xC10F, 0xD0C5].map (decodeTableWord 16) =
      [some (.jp 0x2C0#12), some (.call 0xABC#12), some (.seVxKk 0xA#4 0x7F#8), some (.sneVxKk 0xA#4 0x7F#8),
        some (.ldVxKk 0xA#4 0x7F#8), some (.addVxKk 0xA#4 0x7F#8), some (.ldINnn 0x300#12), some (.jpV0 0xBBB#12),
        some (.rnd 1#4 0x0F#8), some (.drw 0#4 0xC#4 5#4)] := by decide +kernel
/-- S4, rule R104, and words that fall through to it, rule R106. -/
theorem test_decode_family4 :
    [0x00C5, 0x00B3, 0x5AB1, 0x5AC1, 0x8AB8, 0x8AC9, 0x8ABF, 0x9AB1, 0xE1B2, 0xF1C3, 0xF0C0].map (decodeTableWord 16) =
      [some (.scd 5#4), some (.scu 3#4), some (.scu 1#4), some (.scd 1#4), some (.scu 8#4), some (.scd 9#4),
        some (.scu 0xF#4), some (.scu 1#4), some (.scu 2#4), some (.scd 3#4), some (.scd 0#4)] := by decide +kernel
/-- One word of each family, bit by bit. -/
theorem test_decode_bits :
    decodeTableWord 16 0b1111001100110011 = some (.ldBVx 0b0011#4) ∧
    decodeTableWord 16 0b1000011010011110 = some (.shlVxVy 0b0110#4 0b1001#4) ∧
    decodeTableWord 16 0b1101000110101110 = some (.drw 0b0001#4 0b1010#4 0b1110#4) ∧
    decodeTableWord 16 0b0000000011001010 = some (.scd 0b1010#4) := by decide +kernel
/-- Don't-care x (R105). -/
theorem test_decode_dontCare : decodeTableWord 16 0x0AE0 = some .cls ∧ decodeTableWord 16 0x0FFF = some .high := by
  decide +kernel
/-- The UNCLASSIFIED rows of the table. -/
theorem test_decode_unclassified :
    ([0x00D3, 0x0000, 0x0123, 0x00EF, 0x00FA, 0x00F0, 0x5AD1, 0x8AD9, 0x9AD1, 0xE19F, 0xE100, 0xEEEE, 0xF1FF, 0xF100,
      0xFFFF].map (decodeTableWord 16)).all (· == none) = true := by decide +kernel
/-- With KEY_SCU = 0x00D0, 00D3 is SCU and 00B3 is not (R104). -/
theorem test_decode_keyScu : decodeWord 0x00D0#16 0x00D3#16 = .ok (.scu 3#4) ∧
    classify 0x00D0#16 0x00B3#16 = none := by decide +kernel
/-- Ids (R96) of the examples of S1. -/
theorem test_classify : classify defaultKeyScu 0x8AB4#16 = some (.f2, 0x8004#16) ∧
    classify defaultKeyScu 0xD005#16 = some (.f3, 0xD000#16) ∧ classify defaultKeyScu 0x00E0#16 = some (.f1, 0x00E0#16) ∧
    classify defaultKeyScu 0x00C5#16 = some (.f4, 0x00C0#16) := by decide +kernel
/-- The encoder on four rows of the table. -/
theorem test_encode : encode defaultKeyScu (.scu 3#4) = 0x00B3#16 ∧ encode defaultKeyScu (.rnd 1#4 0x0F#8) = 0xC10F#16 ∧
    encode defaultKeyScu (.sknp 1#4) = 0xE1A1#16 ∧ encode defaultKeyScu (.call 0xABC#12) = 0x2ABC#16 := by decide +kernel

/-! ## Text (R118 to R121) -/

theorem test_text : wordText defaultKeyScu 0x6A0C#16 = "LD VA, 0x0C" ∧ wordText defaultKeyScu 0x1200#16 = "JP 0x200" ∧
    wordText defaultKeyScu 0xD12F#16 = "DRW V1, V2, 15" ∧ wordText defaultKeyScu 0x8AC9#16 = "SCD 9" := by decide +kernel
/-- R120's example: 0x8AC9 reassembles as 0x00C9. -/
theorem test_reassemble : reassemble defaultKeyScu 0x8AC9#16 = some [0x00#8, 0xC9#8] := by decide +kernel
/-- R121: `DW` of any word is the word's two bytes, high byte first, also of a word that an instruction has. -/
theorem test_assemble_dw : assemble defaultKeyScu "DW 0x8AC9" = some [0x8A#8, 0xC9#8] ∧
    assemble defaultKeyScu "DW 0x0123" = some [0x01#8, 0x23#8] := by decide +kernel
theorem test_assemble : assemble defaultKeyScu "LD [I], VF" = some [0xFF#8, 0x55#8] ∧
    assemble defaultKeyScu "JP V0, 0x300" = some [0xB3#8, 0x00#8] ∧
    assemble defaultKeyScu "DRW V0, V0, 5" = some [0xD0#8, 0x05#8] := by decide +kernel
/-- No line: a three-digit marker, a nibble above 15, JP with another register, no operand, a register of no digit. -/
theorem test_assemble_refuses : ["DW 0x123", "SCD 16", "JP V1, 0x300", "SKP", "SKP VG", "LD V1,V2", ""].all
    (fun l => assemble defaultKeyScu l == none) = true := by decide +kernel
theorem test_disassemble : disassemble defaultKeyScu [0x00#8, 0xE0#8, 0x00#8, 0x00#8, 0xF1#8] =
    ["0000: 00E0  CLS", "0002: 0000  DW 0x0000"] := by decide +kernel

/-! ## Control flow (2.2) -/

theorem test_F1_jp : ran 0x1ABC State.reset (·.pc) = some 0x0ABC#16 := by decide +kernel
theorem test_F4_call : ran 0x2300 { State.reset with pc := 0x204#16 } (fun t => (t.pc, t.stk)) =
    some (0x300#16, [0x204#16]) := by decide +kernel
theorem test_F7_call_full :
    ran 0x2300 { State.reset with pc := 0x204#16, stk := [0x200#16], cfg := { defaultConfig with stackDepth := some 1 } }
      (fun t => (t.pc, t.stk, errors t)) =
    some (0x206#16, [0x200#16], false, true, [⟨.stackOverflow, 1⟩]) := by decide +kernel
theorem test_F9_ret : ran 0x00EE { State.reset with pc := 0x300#16, stk := [0x400#16, 0x204#16] } (fun t => (t.pc, t.stk)) =
    some (0x402#16, [0x204#16]) := by decide +kernel
theorem test_F10_ret_empty : ran 0x00EE { State.reset with pc := 0x300#16 } (fun t => (t.pc, t.stk, errors t)) =
    some (0x302#16, [], false, true, [⟨.stackUnderflow, 0⟩]) := by decide +kernel
theorem test_F12_se_taken : ran 0x3A42 (withRegs [(0xA#4, 0x42#8)]) (·.pc) = some 0x204#16 := by decide +kernel
theorem test_F13_se_not : ran 0x3A42 (withRegs [(0xA#4, 0x43#8)]) (·.pc) = some 0x202#16 := by decide +kernel
theorem test_F14_sne_not : ran 0x4A42 (withRegs [(0xA#4, 0x42#8)]) (·.pc) = some 0x202#16 := by decide +kernel
theorem test_F15_sne_taken : ran 0x4A42 (withRegs [(0xA#4, 0x43#8)]) (·.pc) = some 0x204#16 := by decide +kernel
theorem test_F17_se_regs : ran 0x5AB0 (withRegs [(0xA#4, 7#8), (0xB#4, 8#8)]) (·.pc) = some 0x202#16 := by decide +kernel
theorem test_F20_sne_regs : ran 0x9AB0 (withRegs [(0xA#4, 7#8), (0xB#4, 8#8)]) (·.pc) = some 0x204#16 := by decide +kernel
theorem test_F22_jpV0 : ran 0xBFFF (withRegs [(0#4, 0xFF#8), (0xF#4, 1#8)]) (·.pc) = some 0x10FE#16 := by decide +kernel
theorem test_F24_last_fetch : ran 0x6A42 { State.reset with pc := 0xFFE#16 } (fun t => (t.pc, t.reg 0xA#4)) =
    some (0x1000#16, 0x42#8) := by decide +kernel
theorem test_F25_fetchRange : seen { State.reset with pc := 0xFFF#16 } (fun t => (t.pc, errors t)) =
    some (0x1001#16, false, true, [⟨.fetchRange, 0xFFF⟩]) := by decide +kernel
theorem test_F27_fetchRange_wraps : seen { State.reset with pc := 0xFFFE#16 } (fun t => (t.pc, errors t)) =
    some (0#16, false, true, [⟨.fetchRange, 0xFFFE⟩]) := by decide +kernel

/-! ## Arithmetic and logic (2.3) -/

theorem test_A2_ld : ran 0x8FB0 (withRegs [(0xB#4, 0x99#8)]) (·.reg 0xF#4) = some 0x99#8 := by decide +kernel
theorem test_A3_or : ran 0x8AB1 (withRegs [(0xA#4, 0xF0#8), (0xB#4, 0x0F#8), (0xF#4, 0x77#8)]) (regs [0xA#4, 0xF#4]) =
    some [0xFF#8, 0x77#8] := by decide +kernel
theorem test_A4_and : ran 0x8AB2 (withRegs [(0xA#4, 0xFC#8), (0xB#4, 0x3F#8), (0xF#4, 0x77#8)]) (regs [0xA#4, 0xF#4]) =
    some [0x3C#8, 0x77#8] := by decide +kernel
theorem test_A5_xor : ran 0x8AB3 (withRegs [(0xA#4, 0xFF#8), (0xB#4, 0x0F#8), (0xF#4, 0x77#8)]) (regs [0xA#4, 0xF#4]) =
    some [0xF0#8, 0x77#8] := by decide +kernel
theorem test_A8_add : ran 0x8AB4 (withRegs [(0xA#4, 0xFE#8), (0xB#4, 1#8), (0xF#4, 1#8)]) (regs [0xA#4, 0xF#4]) =
    some [0xFF#8, 0#8] := by decide +kernel
theorem test_A11_add_xF : ran 0x8FB4 (withRegs [(0xF#4, 0xFF#8), (0xB#4, 2#8)]) (regs [0xF#4]) = some [1#8] := by
  decide +kernel
theorem test_A15_sub_equal : ran 0x8AB5 (withRegs [(0xA#4, 0x10#8), (0xB#4, 0x10#8), (0xF#4, 1#8)]) (regs [0xA#4, 0xF#4]) =
    some [0#8, 0#8] := by decide +kernel
theorem test_A16_sub_borrow : ran 0x8AB5 (withRegs [(0xA#4, 1#8), (0xB#4, 0x10#8)]) (regs [0xA#4, 0xF#4]) =
    some [0xF1#8, 0#8] := by decide +kernel
theorem test_A20_subn : ran 0x8AB7 (withRegs [(0xA#4, 1#8), (0xB#4, 0x10#8)]) (regs [0xA#4, 0xF#4]) =
    some [0x0F#8, 1#8] := by decide +kernel
theorem test_A23_subn_xF : ran 0x8FB7 (withRegs [(0xF#4, 3#8), (0xB#4, 5#8)]) (regs [0xF#4]) = some [1#8] := by decide +kernel
theorem test_A25_shr_quirk : ran 0x8126 (withQuirks true false false (withRegs [(1#4, 5#8), (2#4, 8#8)]))
    (regs [1#4, 2#4, 0xF#4]) = some [2#8, 8#8, 1#8] := by decide +kernel
theorem test_A31_shr_sF : ran 0x81F6 (withRegs [(1#4, 0x55#8), (0xF#4, 3#8)]) (regs [1#4, 0xF#4]) = some [0#8, 1#8] := by
  decide +kernel
theorem test_A37_shl : ran 0x812E (withRegs [(2#4, 0xFF#8)]) (regs [1#4, 0xF#4]) = some [0xFE#8, 1#8] := by decide +kernel
theorem test_A38_shl_xF : ran 0x8F2E (withRegs [(2#4, 0x81#8)]) (regs [0xF#4]) = some [2#8] := by decide +kernel

/-! ## Immediate and random (2.4) -/

theorem test_I1_ld : ran 0x6A42 State.reset (fun t => (t.reg 0xA#4, t.pc)) = some (0x42#8, 0x202#16) := by decide +kernel
theorem test_I4_add : ran 0x7A01 (withRegs [(0xA#4, 0xFF#8)]) (regs [0xA#4, 0xF#4]) = some [0#8, 0#8] := by decide +kernel
/-- I9: the mask 00 gives 00 whatever the draw is; and the draw is counted. -/
theorem test_I9_rnd : ran 0xC100 (withRegs [(1#4, 5#8)]) (fun t => (t.reg 1#4, t.draws)) = some (0#8, 1) := by
  have h : ∀ b : Byte, b &&& 0x00#8 = 0#8 := by decide
  show some (Config.rnd8 0 &&& 0x00#8, 1) = _
  rw [h]

/-! ## Index register and memory (2.5) -/

theorem test_M2_ldI : ran 0xAFFF State.reset (·.ireg) = some 0x0FFF#16 := by decide +kernel
theorem test_M5_addI : ran 0xF11E { withRegs [(1#4, 1#8), (0xF#4, 7#8)] with ireg := 0xFFF#16 }
    (fun t => (t.ireg, t.reg 0xF#4)) = some (0x1000#16, 7#8) := by decide +kernel
theorem test_M6_addI_wraps : ran 0xF11E { withRegs [(1#4, 0xFF#8)] with ireg := 0xFFFF#16 } (·.ireg) = some 0xFE#16 := by
  decide +kernel
theorem test_M12_ldF : ran 0xF129 (withRegs [(1#4, 0xFF#8)]) (·.ireg) = some 0x4FB#16 := by decide +kernel
theorem test_M17_ldHf : ran 0xF130 (withRegs [(1#4, 0xFF#8)]) (·.ireg) = some 0xA46#16 := by decide +kernel
theorem test_M22_bcd_top : ran 0xF133 { withRegs [(1#4, 0x64#8)] with ireg := 0xFFD#16 }
    (fun t => (t.bytesFrom 0xFFD 3, errors t)) = some ([1#8, 0#8, 0#8], false, false, []) := by decide +kernel
theorem test_M23_bcd_range : ran 0xF133 { withRegs [(1#4, 0x64#8)] with ireg := 0xFFE#16 }
    (fun t => (t.bytesFrom 0xFFE 2, errors t)) = some ([0#8, 0#8], false, true, [⟨.memRange, 0x1000⟩]) := by decide +kernel
theorem test_M28_store : ran 0xF255
    { withQuirks false true false (withRegs [(0#4, 0x11#8), (1#4, 0x22#8), (2#4, 0x33#8), (3#4, 0x44#8)]) with ireg := 0x300#16 }
    (fun t => (t.bytesFrom 0x300 4, t.ireg)) = some ([0x11#8, 0x22#8, 0x33#8, 0#8], 0x303#16) := by decide +kernel
theorem test_M32_store_range : ran 0xF155 { withQuirks false true false State.reset with ireg := 0xFFF#16 }
    (fun t => (t.ireg, errors t)) = some (0xFFF#16, false, true, [⟨.memRange, 0x1000⟩]) := by decide +kernel
theorem test_M35_load : ran 0xFF65 State.reset (regs [0#4, 1#4, 4#4, 5#4, 9#4, 0xA#4, 0xC#4, 0xD#4, 0xE#4, 0xF#4]) =
    some [0xF0#8, 0x90#8, 0xF0#8, 0x20#8, 0x70#8, 0xF0#8, 0xF0#8, 0x80#8, 0xF0#8, 0xF0#8] := by decide +kernel
theorem test_M37_load_top : ran 0xF065
    { (withQuirks false true false State.reset).setByte 0xFFF 0x77#8 with ireg := 0xFFF#16 }
    (fun t => (t.reg 0#4, t.ireg)) = some (0x77#8, 0x1000#16) := by decide +kernel
/-- The canonical form: writing what an unlisted address reads as lists nothing; listing keeps the order. -/
theorem test_memory_form : memWrite [] (memWrite [] [] 0x300 5#8) 0x300 0#8 = [] ∧
    memWrite [] (memWrite [] [] 0x300 5#8) 0x200 6#8 = [(0x200, 6#8), (0x300, 5#8)] ∧
    memWf [] [(0x300, 5#8), (0x200, 6#8)] = false ∧ memWf [] [(0x300, 0#8)] = false ∧ memWf [] [(0x1000, 1#8)] = false := by
  decide +kernel

/-! ## Keypad, timers, host events (2.6) -/

theorem test_K1_skp : ran 0xE19E { withRegs [(1#4, 5#8)] with key := keys [5] } (·.pc) = some 0x204#16 := by decide +kernel
theorem test_K4_skp_index : ran 0xE19E (withRegs [(1#4, 0x10#8)]) (fun t => (t.pc, errors t)) =
    some (0x202#16, false, true, [⟨.keyIndex, 0x10⟩]) := by decide +kernel
theorem test_K6_sknp : ran 0xE1A1 { withRegs [(1#4, 5#8)] with key := keys [4] } (·.pc) = some 0x204#16 := by decide +kernel
theorem test_K7_sknp_index : ran 0xE1A1 (withRegs [(1#4, 0xFF#8)]) (fun t => (t.pc, errors t)) =
    some (0x202#16, false, true, [⟨.keyIndex, 0xFF⟩]) := by decide +kernel
theorem test_K9_wait : ran 0xF30A { State.reset with key := keys [3] } (fun t => (t.pc, t.run, t.wreg)) =
    some (0x200#16, .awaitingKey, 3#4) := by decide +kernel
theorem test_K11_wake : seen { State.reset with run := .awaitingKey, wreg := 3#4, schedule := [.keypadWrite (keys [2, 9])] }
    (fun t => (t.key, t.reg 3#4, t.pc, t.run)) = some (keys [2, 9], 2#8, 0x202#16, .running) := by decide +kernel
theorem test_K12_held : seen
    { State.reset with run := .awaitingKey, wreg := 3#4, key := keys [4], schedule := [.keypadWrite (keys [4])] }
    (fun t => (t.key, t.pc, t.run)) = some (keys [4], 0x200#16, .awaitingKey) := by decide +kernel
theorem test_T1_ldDt : ran 0xF407 { State.reset with dt := 30#8 } (·.reg 4#4) = some 0x1E#8 := by decide +kernel
theorem test_T3_setDt : ran 0xF415 (withRegs [(4#4, 0x3C#8)]) (fun t => (t.dt, t.st)) = some (60#8, 0#8) := by decide +kernel
theorem test_T5_setSt : ran 0xF418 (withRegs [(4#4, 2#8)]) (fun t => (t.dt, t.st, t.tone)) = some (0#8, 2#8, true) := by
  decide +kernel
theorem test_T7_tick : seen { State.reset with dt := 2#8, st := 1#8, schedule := [.tick] } (fun t => (t.dt, t.st, t.tone)) =
    some (1#8, 0#8, false) := by decide +kernel
theorem test_T11_tick_wait : seen
    { State.reset with run := .awaitingKey, dt := 5#8, cfg := { defaultConfig with tickInWait := false }, schedule := [.tick] }
    (·.dt) = some 5#8 := by decide +kernel
theorem test_T12_tick_halted : seen { State.reset with run := .halted, dt := 5#8, st := 3#8, schedule := [.tick] }
    (fun t => (t.dt, t.st, t.tone)) = some (5#8, 3#8, true) := by decide +kernel
theorem test_T13_present : seen { State.reset with dirty := true, schedule := [.present] } (·.dirty) = some false := by
  decide +kernel
theorem test_T15_shutdown : seen { State.reset with run := .awaitingKey, schedule := [.shutdown] } (fun t => (t.run, t.pc)) =
    some (.halted, 0x200#16) := by decide +kernel
/-- P1's image, loaded by a Reset event from another state. -/
theorem test_reset_event : seen
    { withRegs [(1#4, 5#8)] with run := .halted, schedule := [.reset defaultConfig [0x00#8, 0xE0#8, 0x12#8, 0x00#8]] }
    (fun t => (t.run, t.reg 1#4, t.wordAt 0x200, t.wordAt 0x202, t.wordAt 0x204, t.byteAt 0x14)) =
    some (.running, 0#8, 0x00E0#16, 0x1200#16, 0#16, 0x90#8) := by decide +kernel

/-! ## Display and system (2.7) -/

theorem test_D1_drw : ran 0xD005 (withGlyph State.reset) (fun t => (lit t, t.reg 0xF#4, t.dirty)) =
    some ([(0, 0), (0, 1), (0, 2), (0, 3), (1, 0), (1, 3), (2, 0), (2, 3), (3, 0), (3, 3), (4, 0), (4, 1), (4, 2), (4, 3)],
      0#8, true) := by decide +kernel
theorem test_D7_drw_wraps : ran 0xD125 (withQuirks false false true (withGlyph (withRegs [(1#4, 0x3C#8), (2#4, 0x1E#8)])))
    (fun t => (lit t, t.reg 0xF#4)) =
    some ([(0, 60), (0, 63), (1, 60), (1, 63), (2, 60), (2, 61), (2, 62), (2, 63), (30, 60), (30, 61), (30, 62), (30, 63),
      (31, 60), (31, 63)], 0#8) := by decide +kernel
theorem test_D14_drw_xF :
    ran 0xDF21 (withPixels .low [(1, 3)] { (withRegs [(0xF#4, 3#8), (2#4, 1#8)]).setByte 0x300 0x80#8 with ireg := 0x300#16 })
      (fun t => (lit t, t.reg 0xF#4)) = some ([], 1#8) := by decide +kernel
theorem test_D18_drw_range : ran 0xD005 { withRegs [(0xF#4, 1#8)] with ireg := 0xFFC#16 }
    (fun t => (t.reg 0xF#4, t.dirty, errors t)) = some (1#8, false, false, true, [⟨.memRange, 0x1000⟩]) := by decide +kernel
theorem test_D21_cls : ran 0x00E0 (withPixels .low [(0, 0), (31, 63)] (withRegs [(0xF#4, 1#8)]))
    (fun t => (lit t, t.dirty, t.reg 0xF#4)) = some ([], true, 1#8) := by decide +kernel
theorem test_D23_high : ran 0x00FF (withPixels .high [(5, 100)] State.reset)
    (fun t => (t.mode, t.fb.length, lit t, t.dirty)) = some (.high, 64, [], true) := by decide +kernel
theorem test_D24_low : ran 0x00FE (withPixels .high [(5, 100)] State.reset)
    (fun t => (t.mode, t.fb.length, lit t, t.dirty)) = some (.low, 32, [], true) := by decide +kernel
theorem test_D26_scd : ran 0x00C3 (withPixels .low [(0, 0), (28, 5), (29, 6), (31, 63)] State.reset) lit =
    some [(3, 0), (31, 5)] := by decide +kernel
theorem test_D30_scu : ran 0x00B3 (withPixels .low [(0, 0), (2, 5), (3, 6), (31, 63)] State.reset) lit =
    some [(0, 6), (28, 63)] := by decide +kernel
theorem test_D34_scr : ran 0x00FB State.reset (fun t => (t.pc, t.dirty, errors t)) =
    some (0x202#16, false, false, false, []) := by decide +kernel
theorem test_D35_scl : ran 0x00FC State.reset (fun t => (t.pc, t.dirty, errors t)) =
    some (0x202#16, false, false, false, []) := by decide +kernel
theorem test_D36_exit : ran 0x00FD State.reset (fun t => (t.run, t.pc)) = some (.halted, 0x200#16) := by decide +kernel
theorem test_D37_ldR : ran 0xF375 (withRegs [(3#4, 9#8)]) (fun t => (t.pc, t.reg 3#4)) = some (0x202#16, 9#8) := by
  decide +kernel
theorem test_D38_ldVxR : ran 0xF385 (withRegs [(3#4, 9#8)]) (fun t => (t.pc, t.reg 3#4)) = some (0x202#16, 9#8) := by
  decide +kernel
theorem test_D40_unclassified : ran 0xFFFF State.reset (fun t => (t.pc, errors t)) =
    some (0x202#16, true, false, [⟨.classificationFailure, 0xFFFF⟩]) := by decide +kernel

/-! ## Witnesses: states and operands that meet the hypotheses of each obligation that has some -/

/-- A state that is in no run from reset: HIGH, two pixels on, a memory cell, a stack entry, both error bits. -/
def busy : State :=
  withPixels .high [(5, 100), (63, 127)]
    { withGlyph (withRegs [(0#4, 7#8), (1#4, 0x3C#8), (0xF#4, 1#8)]) with stk := [0x204#16], cf := true, hf := true, key := keys [4] }

/-- The state with this event next. -/
def facing (e : Event) (s : State) : State := { s with schedule := [e] }

theorem witness_DecodeEncodeRoundTrip :
    (keyScuOk 0x00B0#16 = true ∧ Instr.wellFormed 0x00B0#16 (.scu 0xF#4) = true) ∧
    (keyScuOk 0x00F0#16 = true ∧ Instr.wellFormed 0x00F0#16 (.scu 0xA#4) = true) ∧
    (0x5AB1#16 &&& Family.f4.mask ∈ knownSet 0x00B0#16 .f4 ∧
      ∀ g : Family, g.number < Family.f4.number → 0x5AB1#16 &&& g.mask ∉ knownSet 0x00B0#16 g) := by
  refine ⟨by decide, by decide, by decide, fun g => ?_⟩
  cases g <;> decide

theorem witness_DecoderAgreesWithClassifier :
    decodeWord 0x00B0#16 0x8AB4#16 = .ok (.addVxVy 0xA#4 0xB#4) ∧ classify 0x00B0#16 0x0000#16 = none := by decide +kernel

theorem witness_EncodeDecodeCanonical :
    keyScuOk 0x00B0#16 = true ∧ decodeWord 0x00B0#16 0x0AE0#16 = .ok .cls := by decide +kernel

theorem witness_FallThroughWordsScroll :
    (0x5AC1#16 &&& 0xF0FF#16 ∉ knownSet defaultKeyScu .f1 ∧ 0x5AC1#16 &&& 0xF00F#16 ∉ knownSet defaultKeyScu .f2 ∧
      (0x5AC1#16).extractLsb' 12 4 ∈ [0x0#4, 0x5#4, 0x8#4, 0x9#4, 0xE#4, 0xF#4] ∧ (0x5AC1#16).extractLsb' 4 4 = 0xC#4) ∧
    (0x9AB1#16 &&& 0xF0FF#16 ∉ knownSet defaultKeyScu .f1 ∧ 0x9AB1#16 &&& 0xF00F#16 ∉ knownSet defaultKeyScu .f2 ∧
      (0x9AB1#16).extractLsb' 12 4 ∈ [0x0#4, 0x5#4, 0x8#4, 0x9#4, 0xE#4, 0xF#4] ∧ (0x9AB1#16).extractLsb' 4 4 = 0xB#4) := by
  decide

/-- A word that loses don't-care bits, and an unclassified one. -/
theorem witness_DisassemblyReassembles :
    keyScuOk defaultKeyScu = true ∧ decodeWord defaultKeyScu 0x8AC9#16 = .ok (.scd 9#4) ∧
      classify defaultKeyScu 0x0000#16 = none := by decide +kernel

/-- Equal texts, for the clauses that draw equality from them. -/
theorem witness_DisassemblyReassembles_texts :
    instrText (.scd 9#4) = instrText (.scd 9#4) ∧ markerText 0#16 = markerText 0#16 ∧ hexWord 0#16 = hexWord 0#16 :=
  ⟨rfl, rfl, rfl⟩

/-- An event, and an address at each end of each range, for programs of 0xE00 bytes, of 0xE01 and of none. -/
theorem witness_ResetLoadsProgram :
    (facing (.reset defaultConfig []) busy).schedule = .reset defaultConfig [] :: [] ∧ 0xFF < 0x100 ∧
    (0x100 ≤ 0x1FF ∧ 0x1FF < 0x200) ∧ 0xDFF < min (List.replicate 0xE01 0x55#8).length 0xE00 ∧
    (0x200 + min ([] : List Byte).length 0xE00 ≤ 4095 ∧ 4095 < 4096) := by
  refine ⟨rfl, ?_⟩
  rw [List.length_replicate]
  decide

theorem witness_ResetStateIsWellFormed : (0x200 ≤ 0x200 ∧ 0x200 < 4096) ∧ 0x200 ≤ 4095 ∧ 4095 < 4096 := by decide

/-- At the last pc at which a word can be fetched, with Step scheduled and with nothing scheduled. -/
theorem witness_StepRunsDecodedInstruction :
    let s := { busy with pc := 0xFFE#16 }.setWordAt 0xFFE 0x6A42#16
    s.StepNext s ∧ (facing .step s).StepNext s ∧ s.run = .running ∧ s.pc.toNat + 1 < 4096 ∧
      decodeWord s.cfg.keyScu (s.byteAt s.pc.toNat ++ s.byteAt (s.pc.toNat + 1)) = .ok (.ldVxKk 0xA#4 0x42#8) := by
  refine ⟨Or.inl ⟨by decide +kernel, rfl⟩, Or.inr ⟨[], rfl, rfl⟩, by decide +kernel, by decide +kernel, by decide +kernel⟩

theorem witness_UnclassifiedWordAdvances :
    let s := { busy with pc := 0x400#16 }
    s.StepNext s ∧ s.run = .running ∧ s.pc.toNat + 1 < 4096 ∧
      classify s.cfg.keyScu (s.byteAt s.pc.toNat ++ s.byteAt (s.pc.toNat + 1)) = none := by
  refine ⟨Or.inl ⟨by decide +kernel, rfl⟩, by decide +kernel⟩

theorem witness_FetchOutsideMemoryFaults :
    let s := { busy with pc := 0xFFF#16 }
    s.StepNext s ∧ s.run = .running ∧ 4096 ≤ s.pc.toNat + 1 := by
  refine ⟨Or.inl ⟨by decide +kernel, rfl⟩, by decide +kernel⟩

/-- One instruction for each cause it can raise. -/
theorem witness_HandlerFaultsArePrecise :
    (∃ t, exec (.drw 0#4 0#4 2#4) { busy with ireg := 0xFFF#16 } = .next t ∧ t.reports ≠ busy.reports) ∧
    (∃ t, exec (.call 0x300#12) { busy with cfg := { busy.cfg with stackDepth := some 1 } } = .next t ∧
      t.reports ≠ busy.reports) ∧
    (∃ t, exec .ret { busy with stk := [] } = .next t ∧ t.reports ≠ busy.reports) ∧
    (∃ t, exec (.skp 1#4) busy = .next t ∧ t.reports ≠ busy.reports) :=
  ⟨⟨_, rfl, by decide +kernel⟩, ⟨_, rfl, by decide +kernel⟩, ⟨_, rfl, by decide +kernel⟩, ⟨_, rfl, by decide +kernel⟩⟩

theorem witness_StepKeepsFramebufferShape : busy.FbOk ∧ ∃ t, step busy = .next t := ⟨by decide +kernel, _, rfl⟩

theorem witness_StepKeepsMemoryCanonical : busy.MemOk ∧ busy.mem ≠ [] ∧ ∃ t, step busy = .next t :=
  ⟨by decide +kernel, by decide +kernel, _, rfl⟩

/-- With a full stack and with an unbounded one. -/
theorem witness_StepKeepsStackBound :
    (let s := { busy with cfg := { busy.cfg with stackDepth := some 1 } }; s.StackOk ∧ ∃ t, step s = .next t) ∧
    (let s := { busy with cfg := { busy.cfg with stackDepth := none } }; s.StackOk ∧ ∃ t, step s = .next t) := by
  refine ⟨⟨?_, _, rfl⟩, ⟨?_, _, rfl⟩⟩ <;> intro d hd
  · cases hd; decide +kernel
  · cases hd

/-- At the highest return address at which a word can be fetched. -/
theorem witness_StepKeepsReturnsFetchable :
    let s := { busy with stk := [0xFFE#16] }; s.ReturnsOk ∧ ∃ t, step s = .next t := by
  refine ⟨?_, _, rfl⟩
  intro a ha
  rw [List.mem_singleton.mp ha]
  decide

theorem witness_HaltedIsTerminal :
    let s := { busy with run := .halted }
    s.run = .halted ∧ s.schedule = [] ∧ (facing .step s).schedule = .step :: [] ∧ (facing .tick s).schedule = .tick :: [] ∧
      (facing .shutdown s).schedule = .shutdown :: [] ∧
      ∃ t, step (facing (.reset defaultConfig []) s) = .next t ∧ t.run ≠ .halted :=
  ⟨rfl, by decide +kernel, rfl, rfl, rfl, _, rfl, by decide +kernel⟩

/-- The three ways out of the wait. -/
theorem witness_AwaitingKeyHolds :
    let s := { busy with run := .awaitingKey }
    s.run = .awaitingKey ∧ s.StepNext s ∧
      (∃ t, step (facing (.reset defaultConfig []) s) = .next t ∧ t.run ≠ .awaitingKey) ∧
      (∃ t, step (facing .shutdown s) = .next t ∧ t.run ≠ .awaitingKey) ∧
      ∃ t, step (facing (.keypadWrite (keys [4, 15])) s) = .next t ∧ t.run ≠ .awaitingKey :=
  ⟨rfl, Or.inl ⟨by decide +kernel, rfl⟩, ⟨_, rfl, by decide +kernel⟩, ⟨_, rfl, by decide +kernel⟩, ⟨_, rfl, by decide +kernel⟩⟩

theorem witness_RunStateEntries :
    busy.run = .running ∧ (∃ t, exec (.ldVxK 3#4) busy = .next t ∧ t.wreg ≠ busy.wreg) ∧ (∃ t, exec .exit busy = .next t) ∧
      ∃ t, exec .cls busy = .next t :=
  ⟨by decide +kernel, ⟨_, rfl, by decide +kernel⟩, ⟨_, rfl⟩, _, rfl⟩

theorem witness_ErrorBitsAreSticky : (∃ t, step busy = .next t) ∧ ¬ busy.ResetNext ∧ busy.cf = true ∧ busy.hf = true := by
  refine ⟨⟨_, rfl⟩, ?_, by decide +kernel⟩
  rintro ⟨c, p, r, h⟩
  exact absurd (h.symm.trans (show busy.schedule = [] by decide +kernel)) (by simp)

/-- With a KeypadWrite next and with nothing scheduled. -/
theorem witness_KeypadAndConfigWriters :
    (let s := facing (.keypadWrite (keys [0, 15])) busy;
      (∃ t, step s = .next t) ∧ ¬ s.ResetNext ∧ s.schedule = .keypadWrite (keys [0, 15]) :: []) ∧
    ((∃ t, step busy = .next t) ∧ ¬ busy.ResetNext ∧ ∀ snapshot rest, busy.schedule ≠ .keypadWrite snapshot :: rest) := by
  have h0 : busy.schedule = [] := by decide +kernel
  refine ⟨⟨⟨_, rfl⟩, ?_, rfl⟩, ⟨_, rfl⟩, witness_ErrorBitsAreSticky.2.1, fun a b h => ?_⟩
  · rintro ⟨c, p, r, h⟩
    simp [facing] at h
  · exact absurd (h.symm.trans h0) (by simp)

/-- A DRW that draws and one that faults. -/
theorem witness_DirtyFlagWriters :
    (∃ t, exec (.drw 0#4 0#4 5#4) busy = .next t ∧ t.dirty = true) ∧
    (∃ t, exec (.drw 0#4 0#4 5#4) { busy with ireg := 0xFFF#16 } = .next t ∧ t.dirty = false) ∧
    ∃ t, exec (.scd 0#4) busy = .next t :=
  ⟨⟨_, rfl, by decide +kernel⟩, ⟨_, rfl, by decide +kernel⟩, _, rfl⟩

theorem witness_RegisterWriters :
    (∃ t, exec (.addVxVy 0#4 1#4) busy = .next t ∧ t.reg 0xF#4 ≠ busy.reg 0xF#4 ∧ t.reg 0#4 ≠ busy.reg 0#4) ∧
    ∃ t, exec (.ldVxMem 2#4) busy = .next t ∧ t.reg 2#4 ≠ busy.reg 2#4 :=
  ⟨⟨_, rfl, by decide +kernel⟩, _, rfl, by decide +kernel⟩

theorem witness_MemoryWriters :
    (∃ t, exec (.ldBVx 1#4) busy = .next t ∧ t.byteAt 0x302 ≠ busy.byteAt 0x302) ∧
    (let s := facing .tick busy;
      s.schedule = .tick :: [] ∧ Event.tick ≠ .step ∧ ¬ s.ResetNext ∧ ∃ t, step s = .next t) := by
  refine ⟨⟨_, rfl, by decide +kernel⟩, rfl, by decide, ?_, _, rfl⟩
  rintro ⟨c, p, r, h⟩
  simp [facing] at h

theorem witness_SpecialStateWriters :
    (∃ t, exec (.ldINnn 0x123#12) busy = .next t ∧ t.ireg ≠ busy.ireg) ∧
    (∃ t, exec (.ldMemVx 2#4) (withQuirks false true false busy) = .next t ∧ t.ireg ≠ busy.ireg) ∧
    (∃ t, exec .ret busy = .next t ∧ t.stk ≠ busy.stk) ∧ (∃ t, exec .low busy = .next t ∧ t.mode ≠ busy.mode) ∧
    (∃ t, exec (.scu 1#4) busy = .next t ∧ t.fb ≠ busy.fb) ∧ (∃ t, exec (.ldDtVx 0#4) busy = .next t ∧ t.dt ≠ busy.dt) ∧
    (∃ t, exec (.ldStVx 0#4) busy = .next t ∧ t.st ≠ busy.st) ∧ ∃ t, exec (.rnd 0#4 0#8) busy = .next t ∧ t.draws ≠ busy.draws :=
  ⟨⟨_, rfl, by decide +kernel⟩, ⟨_, rfl, by decide +kernel⟩, ⟨_, rfl, by decide +kernel⟩, ⟨_, rfl, by decide +kernel⟩,
    ⟨_, rfl, by decide +kernel⟩, ⟨_, rfl, by decide +kernel⟩, ⟨_, rfl, by decide +kernel⟩, _, rfl, by decide +kernel⟩

/-- The four run states of the two clauses. -/
theorem witness_TickDecrementsTimers :
    (facing .tick busy).schedule = .tick :: [] ∧ (facing .tick busy).run = .running ∧
    (let s := facing .tick { busy with run := .awaitingKey }; s.run = .awaitingKey ∧ s.cfg.tickInWait = true) ∧
    (facing .tick { busy with run := .halted }).run = .halted ∧
    (let s := facing .tick { busy with run := .awaitingKey, cfg := { busy.cfg with tickInWait := false } };
      s.run = .awaitingKey ∧ s.cfg.tickInWait = false) := by
  refine ⟨rfl, by decide +kernel, by decide +kernel, by decide +kernel, by decide +kernel⟩

/-- RUNNING; waiting with no fresh key; waiting with key 15, the last, as the lowest fresh one. -/
theorem witness_KeypadWriteWakesOnFreshKey :
    (let s := facing (.keypadWrite (keys [4])) busy; s.schedule = .keypadWrite (keys [4]) :: [] ∧ s.run ≠ .awaitingKey) ∧
    (let s := facing (.keypadWrite (keys [4])) { busy with run := .awaitingKey };
      s.run = .awaitingKey ∧ ∀ k, k < 16 → (keys [4]).getLsbD k = true → s.key.getLsbD k = true) ∧
    (let s := facing (.keypadWrite (keys [4, 15])) { busy with run := .awaitingKey };
      s.run = .awaitingKey ∧ 15 < 16 ∧ (keys [4, 15]).getLsbD 15 = true ∧ s.key.getLsbD 15 = false ∧
        ∀ j, j < 15 → (keys [4, 15]).getLsbD j = true → s.key.getLsbD j = true) := by
  refine ⟨⟨rfl, by decide +kernel⟩, ⟨rfl, by decide +kernel⟩, ⟨rfl, by decide, by decide, by decide +kernel, by decide +kernel⟩⟩

theorem witness_PresentAndShutdown :
    (facing .present busy).schedule = .present :: [] ∧ (facing .shutdown busy).schedule = .shutdown :: [] ∧ busy.FbOk ∧
      63 < busy.mode.height ∧ 127 < busy.mode.width :=
  ⟨rfl, rfl, by decide +kernel, by decide +kernel, by decide +kernel⟩

/-- A stack with room, an unbounded one, a full one. -/
theorem witness_CallPushesOwnAddress :
    busy.cfg.stackDepth ≠ some busy.stk.length ∧
    (let s := { busy with cfg := { busy.cfg with stackDepth := none } }; s.cfg.stackDepth ≠ some s.stk.length) ∧
    (let s := { busy with cfg := { busy.cfg with stackDepth := some 1 } }; s.cfg.stackDepth = some s.stk.length) := by
  decide +kernel

theorem witness_RetResumesAfterCall : busy.stk = 0x204#16 :: [] ∧ State.reset.stk = [] := by decide +kernel

theorem witness_CallThenRet :
    busy.cfg.stackDepth ≠ some busy.stk.length ∧ ∃ t, exec (.call 0x300#12) busy = .next t := ⟨by decide +kernel, _, rfl⟩

/-- Vy as the source, and VF itself. -/
theorem witness_ShrShiftsSource :
    (0x2#4 = (if busy.cfg.qShift then 0x1#4 else 0x2#4) ∧ 0x2#4 ≠ 0xF#4 ∧ 0x1#4 ≠ 0xF#4) ∧
    (0xF#4 = (if (withQuirks true false false busy).cfg.qShift then 0xF#4 else 0x2#4)) := by decide +kernel

/-- Vx as the source, and VF as Vy. -/
theorem witness_ShlShiftsSource :
    (0x1#4 = (if (withQuirks true false false busy).cfg.qShift then 0x1#4 else 0x2#4) ∧ 0x1#4 ≠ 0xF#4) ∧
    (0xF#4 = (if busy.cfg.qShift then 0x1#4 else 0xF#4)) := by decide +kernel

theorem witness_RndMasksDraw : (0x0F#8).getLsbD 7 = false := by decide

/-- The last addresses at which LD B stores and the first at which it faults. -/
theorem witness_BcdStoresDigits :
    (let s := { busy with ireg := 0xFFD#16 }; s.MemOk ∧ s.ireg.toNat + 2 < 4096 ∧ 0xFFC < s.ireg.toNat) ∧
    (let s := { busy with ireg := 0xFFE#16 }; 4096 ≤ s.ireg.toNat + 2) := by decide +kernel

theorem witness_BlockStore :
    (let s := { busy with ireg := 0xFF0#16 }; s.MemOk ∧ s.ireg.toNat + (0xF#4).toNat < 4096 ∧ (0xF#4).toNat ≤ (0xF#4).toNat) ∧
    (let s := { busy with ireg := 0xFF1#16 }; 4096 ≤ s.ireg.toNat + (0xF#4).toNat) := by decide +kernel

theorem witness_BlockLoad :
    (let s := { busy with ireg := 0xFFF#16 }; s.ireg.toNat + (0#4).toNat < 4096 ∧ (0#4).toNat < (1#4).toNat) ∧
    (let s := { busy with ireg := 0xFFF#16 }; 4096 ≤ s.ireg.toNat + (1#4).toNat) := by decide +kernel

/-- Key 15 and key 16. -/
theorem witness_KeySkips : ((withRegs [(1#4, 15#8)]).reg 1#4).toNat ≤ 15 ∧ 15 < ((withRegs [(1#4, 16#8)]).reg 1#4).toNat := by
  decide +kernel

/-- The last sprite byte at 0xFFF; no sprite byte at all, with I outside memory; a sprite byte at 0x1000; a pixel the glyph
lights and one it does not. -/
theorem witness_DrawTogglesSpritePixels :
    (let s := { busy with ireg := 0xFFB#16 }; s.FbOk ∧ s.ireg.toNat + (5#4).toNat - 1 < 4096) ∧
    (let s := { busy with ireg := 0x2000#16 }; s.FbOk ∧ 0#4 = 0#4 ∧ ¬ SpriteLights s 0#4 0#4 0#4 7 7) ∧
    (let s := { busy with ireg := 0xFFC#16 }; 5#4 ≠ 0#4 ∧ 4096 ≤ s.ireg.toNat + (5#4).toNat - 1) ∧
    SpriteLights busy 0#4 0#4 5#4 7 7 := by
  refine ⟨by decide +kernel, ⟨by decide +kernel, rfl, ?_⟩, by decide +kernel, by decide +kernel, by decide +kernel, 0, 0,
    by decide, by decide, by decide +kernel, ?_⟩
  · rintro ⟨-, -, r, c, hr, -⟩
    exact absurd hr (by decide +revert)
  · rw [if_neg (by decide +kernel)]
    decide +kernel

theorem witness_DrawTwiceRestores :
    busy.FbOk ∧ 0#4 ≠ 0xF#4 ∧ 1#4 ≠ 0xF#4 ∧ (5#4 = 0#4 ∨ busy.ireg.toNat + (5#4).toNat - 1 < 4096) ∧
      ∃ t, exec (.drw 0#4 1#4 5#4) busy = .next t :=
  ⟨by decide +kernel, by decide, by decide, by decide +kernel, _, rfl⟩

/-- Row 63 with a shift of 15, and row 0, for both directions. -/
theorem witness_ScrollsMoveRows :
    63 < busy.mode.height ∧ (0xF#4).toNat ≤ 63 ∧ ¬ (0xF#4).toNat ≤ 0 ∧ ¬ 63 + (0xF#4).toNat < busy.mode.height ∧
      0 + (0xF#4).toNat < busy.mode.height := by decide +kernel

end Sys2Proof.Tests
end

section
/-! SUPPORT. What executing one instruction can do (`ExecEffect`, `exec_effect`) and what one event can do (`EventEffect`,
`step_effect`), each said once, with every next state written as an update of the state before. The statements about
which instruction or event writes which piece of state (10_state.md), and the invariants of every step, are read off these
two. -/

namespace Sys2Proof.Machine

/-! ## The effect of an instruction -/

/-- The instructions that write nothing but general registers and pc, and raise no error when they do. -/
def writesOnlyRegs : Instr → Bool
  | .scr | .scl | .skp _ | .sknp _ | .ldVxDt _ | .ldRVx _ | .ldVxR _ | .seVxVy _ _ | .ldVxVy _ _ | .orVxVy _ _
  | .andVxVy _ _ | .xorVxVy _ _ | .addVxVy _ _ | .subVxVy _ _ | .shrVxVy _ _ | .subnVxVy _ _ | .shlVxVy _ _
  | .sneVxVy _ _ | .jp _ | .seVxKk _ _ | .sneVxKk _ _ | .ldVxKk _ _ | .addVxKk _ _ | .jpV0 _ => true
  | _ => false

/-- The register file `v` differs from that of `s` only where the instruction may write (R22, R29). -/
def RegsWithin (i : Instr) (s : State) (v : Vector Byte 16) : Prop :=
  ∀ r : Nibble, v[r.toNat]'r.isLt ≠ s.reg r → mayWriteReg i r = true

/-- Everything an instruction can do in `s`: the fault it raises, or its own effect. -/
inductive ExecEffect (s : State) : Instr → State → Prop
  /-- A byte at I lies outside memory (R63, R264). -/
  | memRange {i : Instr} (hi : (∃ x y n, i = .drw x y n) ∨ (∃ x, i = .ldBVx x) ∨ (∃ x, i = .ldMemVx x) ∨
      ∃ x, i = .ldVxMem x) : ExecEffect s i (handlerFault .memRange (max s.ireg.toNat memSize) s)
  /-- CALL on a full stack (R131). -/
  | stackOverflow (nnn : Addr12) (h : s.stackFull = true) :
      ExecEffect s (.call nnn) (handlerFault .stackOverflow s.stk.length s)
  /-- RET on an empty stack (R132). -/
  | stackUnderflow (h : s.stk = []) : ExecEffect s .ret (handlerFault .stackUnderflow 0 s)
  /-- SKP and SKNP on a register that is no key's number (R200, R201). -/
  | keyIndex {i : Instr} (x : Nibble) (hi : i = .skp x ∨ i = .sknp x) (h : 15 < (s.reg x).toNat) :
      ExecEffect s i (handlerFault .keyIndex (s.reg x).toNat s)
  | registers {i : Instr} (hi : writesOnlyRegs i = true) (v : Vector Byte 16) (pc : Word) (hv : RegsWithin i s v) :
      ExecEffect s i { s with v := v, pc := pc }
  | index {i : Instr} (hi : (∃ nnn, i = .ldINnn nnn) ∨ (∃ x, i = .addIVx x) ∨ (∃ x, i = .ldFVx x) ∨ ∃ x, i = .ldHfVx x)
      (w : Word) : ExecEffect s i { s with ireg := w, pc := s.pc + 2#16 }
  | call (nnn : Addr12) (h : s.stackFull = false) :
      ExecEffect s (.call nnn) { s with stk := s.pc :: s.stk, pc := addrOf nnn }
  | ret (a : Word) (rest : List Word) (h : s.stk = a :: rest) :
      ExecEffect s .ret { s with stk := rest, pc := a + 2#16 }
  | cls : ExecEffect s .cls { s with fb := blankFb s.mode, dirty := true, pc := s.pc + 2#16 }
  | low : ExecEffect s .low { s with mode := .low, fb := blankFb .low, dirty := true, pc := s.pc + 2#16 }
  | high : ExecEffect s .high { s with mode := .high, fb := blankFb .high, dirty := true, pc := s.pc + 2#16 }
  | scd (n : Nibble) :
      ExecEffect s (.scd n) { s with fb := fbScrollDown s.mode (countOf n) s.fb, dirty := true, pc := s.pc + 2#16 }
  | scu (n : Nibble) :
      ExecEffect s (.scu n) { s with fb := fbScrollUp s.mode (countOf n) s.fb, dirty := true, pc := s.pc + 2#16 }
  | draw (x y n : Nibble) (v : Vector Byte 16) (hv : RegsWithin (.drw x y n) s v) :
      ExecEffect s (.drw x y n)
        { s with fb := (fbDraw (drwPlaces x y n s) s.fb false).1, v := v, dirty := true, pc := s.pc + 2#16 }
  | storeDigits (x : Nibble) :
      ExecEffect s (.ldBVx x)
        { s with mem := (s.setBytes s.ireg.toNat (bcdDigits (s.reg x))).mem, pc := s.pc + 2#16 }
  | storeRegs (x : Nibble) :
      ExecEffect s (.ldMemVx x)
        { s with
          mem := (s.setBytes s.ireg.toNat (s.firstRegs (blockLength x))).mem
          ireg := if s.cfg.qLdst then s.ireg + BitVec.ofNat 16 (blockLength x) else s.ireg
          pc := s.pc + 2#16 }
  | loadRegs (x : Nibble) (v : Vector Byte 16) (hv : RegsWithin (.ldVxMem x) s v) :
      ExecEffect s (.ldVxMem x)
        { s with
          v := v
          ireg := if s.cfg.qLdst then s.ireg + BitVec.ofNat 16 (blockLength x) else s.ireg
          pc := s.pc + 2#16 }
  | random (x : Nibble) (kk : Byte) (v : Vector Byte 16) (hv : RegsWithin (.rnd x kk) s v) :
      ExecEffect s (.rnd x kk) { s with v := v, draws := s.draws + 1, pc := s.pc + 2#16 }
  | delayTimer (x : Nibble) : ExecEffect s (.ldDtVx x) { s with dt := s.reg x, pc := s.pc + 2#16 }
  | soundTimer (x : Nibble) : ExecEffect s (.ldStVx x) { s with st := s.reg x, pc := s.pc + 2#16 }
  | wait (x : Nibble) : ExecEffect s (.ldVxK x) { s with wreg := x, run := .awaitingKey }
  | exit : ExecEffect s .exit { s with run := .halted }

/-! ### Register files within an instruction's destinations -/

theorem RegsWithin.refl (i : Instr) (s : State) : RegsWithin i s s.v := fun _ h => absurd rfl h

theorem RegsWithin.setReg {i : Instr} {s : State} {x : Nibble} (hx : mayWriteReg i x = true) (b : Byte) :
    RegsWithin i s (s.setReg x b).v := by
  intro r hr
  have hreg : (s.setReg x b).reg r ≠ s.reg r := hr
  by_cases h : r = x
  · rw [h, hx]
  · exact absurd (s.setReg_reg_ne b h) hreg

theorem RegsWithin.setRegThenFlag {i : Instr} {s : State} {x : Nibble} (hx : mayWriteReg i x = true)
    (hf : mayWriteReg i flagReg = true) (b f : Byte) : RegsWithin i s (s.setRegThenFlag x b f).v := by
  intro r hr
  have hreg : (s.setRegThenFlag x b f).reg r ≠ s.reg r := hr
  rw [State.setRegThenFlag_reg] at hreg
  by_cases h : r = flagReg
  · rw [h, hf]
  · by_cases h' : r = x
    · rw [h', hx]
    · simp [h, h'] at hreg

theorem RegsWithin.setFlagThenReg {i : Instr} {s : State} {x : Nibble} (hx : mayWriteReg i x = true)
    (hf : mayWriteReg i flagReg = true) (src : Nibble) (f : Byte) (g : Byte → Byte) :
    RegsWithin i s (s.setFlagThenReg x src f g).v := by
  intro r hr
  have hreg : (s.setFlagThenReg x src f g).reg r ≠ s.reg r := hr
  rw [State.setFlagThenReg_reg] at hreg
  by_cases h : r = x
  · rw [h, hx]
  · by_cases h' : r = flagReg
    · rw [h', hf]
    · simp [h, h'] at hreg

theorem RegsWithin.loadRegs (s : State) (base : Nat) (x : Nibble) :
    RegsWithin (.ldVxMem x) s (State.loadRegs base (blockLength x) s).v := by
  intro r hr
  have hreg : (State.loadRegs base (blockLength x) s).reg r ≠ s.reg r := hr
  rw [State.loadRegs_reg s base _ (by unfold blockLength; omega)] at hreg
  by_cases h : r.toNat < blockLength x
  · exact decide_eq_true (by unfold blockLength at h; omega)
  · simp [h] at hreg

/-! ### The shapes that several instructions share -/

/-- One register is written. -/
theorem ExecEffect.of_setReg {s : State} {i : Instr} {x : Nibble} (hi : writesOnlyRegs i = true)
    (hx : mayWriteReg i x = true) (b : Byte) : ExecEffect s i (s.setReg x b).advance :=
  .registers hi _ _ (.setReg hx b)

/-- A result and then a flag are written (R160: ADD, SUB, SUBN). -/
theorem ExecEffect.of_setRegThenFlag {s : State} {i : Instr} {x : Nibble} (hi : writesOnlyRegs i = true)
    (hx : mayWriteReg i x = true) (hf : mayWriteReg i flagReg = true) (b f : Byte) :
    ExecEffect s i (s.setRegThenFlag x b f).advance :=
  .registers hi _ _ (.setRegThenFlag hx hf b f)

/-- A flag and then a result are written (R160: SHR, SHL). -/
theorem ExecEffect.of_setFlagThenReg {s : State} {i : Instr} {x : Nibble} (hi : writesOnlyRegs i = true)
    (hx : mayWriteReg i x = true) (hf : mayWriteReg i flagReg = true) (src : Nibble) (f : Byte) (g : Byte → Byte) :
    ExecEffect s i (s.setFlagThenReg x src f g).advance :=
  .registers hi _ _ (.setFlagThenReg hx hf src f g)

/-- pc alone is written. -/
theorem ExecEffect.of_jump {s : State} {i : Instr} (hi : writesOnlyRegs i = true) (w : Word) :
    ExecEffect s i (s.jump w) :=
  .registers hi _ _ (.refl i s)

theorem ExecEffect.of_skipIf {s : State} {i : Instr} (hi : writesOnlyRegs i = true) (b : Bool) :
    ExecEffect s i (s.skipIf b) :=
  s.skipIf_eq b ▸ .of_jump hi _

theorem ExecEffect.of_skipOnKey {s : State} {i : Instr} {x : Nibble} (hi : i = .skp x ∨ i = .sknp x) (want : Bool) :
    ExecEffect s i (skipOnKey (s.reg x) want s) := by
  have hregs : writesOnlyRegs i = true := by obtain rfl | rfl := hi <;> rfl
  obtain ⟨hk, h⟩ | ⟨-, h⟩ := skipOnKey_cases s (s.reg x) want
  · rw [h]
    exact .keyIndex x hi hk
  · rw [h]
    exact .of_skipIf hregs _

/-- An instruction that touches bytes at I raises MemRange or has its own effect (R63). -/
theorem ExecEffect.of_withBytesAtI {s ok : State} {i : Instr} (count : Nat)
    (hi : (∃ x y n, i = .drw x y n) ∨ (∃ x, i = .ldBVx x) ∨ (∃ x, i = .ldMemVx x) ∨ ∃ x, i = .ldVxMem x)
    (hok : ExecEffect s i ok) : ExecEffect s i (withBytesAtI count s ok) := by
  obtain ⟨-, -, h⟩ | ⟨-, h⟩ := withBytesAtI_cases s count ok
  · rw [h]
    exact .memRange hi
  · rwa [h]

theorem execCall_effect {s t : State} (nnn : Addr12) (h : execCall nnn s = .next t) : ExecEffect s (.call nnn) t := by
  unfold execCall at h
  cases hfull : s.stackFull with
  | true =>
    rw [hfull, if_pos rfl] at h
    cases h
    exact .stackOverflow nnn hfull
  | false =>
    rw [hfull, if_neg Bool.false_ne_true] at h
    cases h
    exact .call nnn hfull

theorem execRet_effect {s t : State} (h : execRet s = .next t) : ExecEffect s .ret t := by
  unfold execRet at h
  cases hstk : s.stk with
  | nil =>
    rw [hstk] at h
    cases h
    exact .stackUnderflow hstk
  | cons a rest =>
    rw [hstk] at h
    cases h
    exact .ret a rest hstk

theorem storeDigits_effect (s : State) (x : Nibble) :
    ExecEffect s (.ldBVx x) (s.setBytes s.ireg.toNat (bcdDigits (s.reg x))).advance := by
  rw [State.setBytes_eq]
  exact .storeDigits x

theorem storeRegs_effect (s : State) (x : Nibble) :
    ExecEffect s (.ldMemVx x)
      (autoIncrement x (s.setBytes s.ireg.toNat (s.firstRegs (blockLength x)))).advance := by
  rw [autoIncrement_eq, State.setBytes_eq]
  exact .storeRegs x

theorem loadRegs_effect (s : State) (x : Nibble) :
    ExecEffect s (.ldVxMem x) (autoIncrement x (State.loadRegs s.ireg.toNat (blockLength x) s)).advance := by
  have hv := RegsWithin.loadRegs s s.ireg.toNat x
  rw [autoIncrement_eq, State.loadRegs_eq]
  exact .loadRegs x _ hv

/-- Every next state of `exec` is one of the effects listed in `ExecEffect`. -/
theorem exec_effect {i : Instr} {s t : State} (h : exec i s = .next t) : ExecEffect s i t := by
  cases i with
  | call nnn => exact execCall_effect nnn h
  | ret => exact execRet_effect h
  | _ => ?_
  all_goals cases h
  case scr | scl | ldRVx | ldVxR | jp | jpV0 => exact .of_jump rfl _
  case seVxVy | sneVxVy | seVxKk | sneVxKk => exact .of_skipIf rfl _
  case skp => exact .of_skipOnKey (.inl rfl) true
  case sknp => exact .of_skipOnKey (.inr rfl) false
  case ldVxDt | ldVxVy | orVxVy | andVxVy | xorVxVy | ldVxKk | addVxKk =>
    exact .of_setReg rfl (by simp [mayWriteReg]) _
  case addVxVy | subVxVy | subnVxVy =>
    exact .of_setRegThenFlag rfl (by simp [mayWriteReg]) (by simp [mayWriteReg, flagReg]) _ _
  case shrVxVy | shlVxVy =>
    exact .of_setFlagThenReg rfl (by simp [mayWriteReg]) (by simp [mayWriteReg, flagReg]) _ _ _
  case ldINnn | addIVx | ldFVx | ldHfVx => exact .index (by simp) _
  case ldBVx x => exact .of_withBytesAtI _ (by simp) (storeDigits_effect s x)
  case ldMemVx x => exact .of_withBytesAtI _ (by simp) (storeRegs_effect s x)
  case ldVxMem x => exact .of_withBytesAtI _ (by simp) (loadRegs_effect s x)
  case drw x y n => exact .of_withBytesAtI _ (by simp) (.draw x y n _ (.setReg rfl _))
  case rnd x kk => exact .random x kk _ (.setReg (by simp [mayWriteReg]) _)
  case ldDtVx x => exact .delayTimer x
  case ldStVx x => exact .soundTimer x
  case ldVxK x => exact .wait x
  case exit => exact .exit
  case cls => exact .cls
  case low => exact .low
  case high => exact .high
  case scd n => exact .scd n
  case scu n => exact .scu n

/-! ## The effect of an event -/

/-- Everything an event can do in `s`. -/
inductive EventEffect (s : State) : Event → State → Prop
  /-- A Step that is not enabled (R276, R277, R279). -/
  | idle (hrun : s.run ≠ .running) : EventEffect s .step s
  /-- The word at pc does not lie in memory (R64). -/
  | fetchRange (hrun : s.run = .running) (hpc : memSize ≤ s.pc.toNat + 1) :
      EventEffect s .step (handlerFault .fetchRange s.pc.toNat s)
  /-- The word at pc is no instruction (R262). -/
  | unclassified (hrun : s.run = .running) (hpc : s.pc.toNat + 1 < memSize) :
      EventEffect s .step (classificationFailure (s.wordAt s.pc.toNat) s)
  | instruction (hrun : s.run = .running) (hpc : s.pc.toNat + 1 < memSize) {i : Instr} {t : State}
      (hi : ExecEffect s i t) : EventEffect s .step t
  | tick (dt st : Byte) : EventEffect s .tick { s with dt := dt, st := st }
  | keypad (snapshot : BitVec 16) : EventEffect s (.keypadWrite snapshot) { s with key := snapshot }
  /-- A fresh key completes LD Vx,K (R282). -/
  | wake (snapshot : BitVec 16) (k : Nat) (hrun : s.run = .awaitingKey) :
      EventEffect s (.keypadWrite snapshot) (wakeUp k { s with key := snapshot })
  | present : EventEffect s .present { s with dirty := false }
  | shutdown : EventEffect s .shutdown { s with run := .halted }
  | reset (cfg : Config) (program : List Byte) : EventEffect s (.reset cfg program) (resetEvent cfg program s)

theorem fetchAndExec_effect {s t : State} (hrun : s.run = .running) (h : fetchAndExec s = .next t) :
    EventEffect s .step t := by
  obtain ⟨hpc, he⟩ | ⟨hpc, i, -, he⟩ | ⟨hpc, e, -, he⟩ := fetchAndExec_cases s
  · rw [he] at h
    cases h
    exact .fetchRange hrun hpc
  · rw [he] at h
    exact .instruction hrun hpc (exec_effect h)
  · rw [he] at h
    cases h
    exact .unclassified hrun hpc

theorem stepEvent_effect {s t : State} (h : stepEvent s = .next t) : EventEffect s .step t := by
  by_cases hrun : s.run = .running
  · rw [stepEvent_running hrun] at h
    exact fetchAndExec_effect hrun h
  · rw [stepEvent_idle hrun] at h
    cases h
    exact .idle hrun

theorem keypadEvent_effect (snapshot : BitVec 16) (s : State) :
    EventEffect s (.keypadWrite snapshot) (keypadEvent snapshot s) := by
  obtain ⟨k, ks, hrun, -, h⟩ | ⟨-, h⟩ := keypadEvent_cases s snapshot
  · rw [h]
    exact .wake snapshot k hrun
  · rw [h]
    exact .keypad snapshot

theorem runEvent_effect {e : Event} {s t : State} (h : runEvent e s = .next t) : EventEffect s e t := by
  cases e with
  | step => exact stepEvent_effect h
  | tick =>
    cases h
    rw [tickEvent_eq]
    exact .tick _ _
  | keypadWrite snapshot =>
    cases h
    exact keypadEvent_effect snapshot s
  | present =>
    cases h
    rw [presentEvent_eq]
    exact .present
  | shutdown =>
    cases h
    rw [shutdownEvent_eq]
    exact .shutdown
  | reset cfg program =>
    cases h
    exact .reset cfg program

/-! ## The effect of a step -/

theorem nextEvent_fst_of_cons {s : State} {e : Event} {rest : List Event} (h : s.schedule = e :: rest) :
    (nextEvent s).1 = e := by
  unfold nextEvent
  rw [h]

/-- An event other than Step happens only where it is scheduled (R16). -/
theorem schedule_of_nextEvent {s : State} (h : (nextEvent s).1 ≠ .step) :
    ∃ rest, s.schedule = (nextEvent s).1 :: rest := by
  cases hs : s.schedule with
  | nil => exact absurd (by unfold nextEvent; rw [hs]) h
  | cons e rest => exact ⟨rest, by rw [nextEvent_fst_of_cons hs]⟩

theorem resetNext_of_nextEvent {s : State} {cfg : Config} {program : List Byte}
    (h : (nextEvent s).1 = .reset cfg program) : s.ResetNext := by
  obtain ⟨rest, hs⟩ := schedule_of_nextEvent (s := s) (by simp [h])
  exact ⟨cfg, program, rest, by rw [hs, h]⟩

/-- Around its event a step does nothing but take that event off the schedule. -/
theorem nextEvent_snd (s : State) : (nextEvent s).2 = { s with schedule := s.schedule.tail } := by
  unfold nextEvent
  cases hs : s.schedule with
  | nil =>
    change s = { s with schedule := [] }
    rw [← hs]
  | cons e rest => rfl

/-- Every next state of `step` is an effect of the next event, in the state without it. -/
theorem step_effect {s t : State} (h : step s = .next t) :
    ∃ e, (nextEvent s).1 = e ∧ EventEffect { s with schedule := s.schedule.tail } e t :=
  ⟨_, rfl, nextEvent_snd s ▸ runEvent_effect h⟩

/-! ## Invariants of every step -/

/-- The parts of the state that no host event but Reset writes, and that no error writes. -/
structure SameStore (s t : State) : Prop where
  mode : t.mode = s.mode
  fb : t.fb = s.fb
  stk : t.stk = s.stk
  mem : t.mem = s.mem
  cfg : t.cfg = s.cfg

/-- An event that is no Reset and runs no instruction leaves the store alone. -/
theorem EventEffect.store_cases {s t : State} {e : Event} (h : EventEffect s e t) :
    SameStore s t ∨ (s.pc.toNat + 1 < memSize ∧ ∃ i, ExecEffect s i t) ∨
      ∃ cfg program, SameStore (State.resetWith cfg program) t := by
  cases h with
  | instruction _ hpc hi => exact .inr (.inl ⟨hpc, _, hi⟩)
  | reset cfg program => exact .inr (.inr ⟨cfg, program, rfl, rfl, rfl, rfl, rfl⟩)
  | _ => exact .inl ⟨rfl, rfl, rfl, rfl, rfl⟩

/-- The induction behind every invariant of the store: it holds after Reset and each instruction keeps it, so each step
keeps it. -/
theorem step_keeps {P : State → Prop} (hstore : ∀ {s t}, SameStore s t → P s → P t)
    (hreset : ∀ cfg program, P (State.resetWith cfg program))
    (hexec : ∀ {s i t}, s.pc.toNat + 1 < memSize → ExecEffect s i t → P s → P t)
    {s t : State} (hs : P s) (h : step s = .next t) : P t := by
  obtain ⟨e, -, he⟩ := step_effect h
  have hs' : P { s with schedule := s.schedule.tail } := hstore (s := s) ⟨rfl, rfl, rfl, rfl, rfl⟩ hs
  obtain hsame | ⟨hpc, i, hi⟩ | ⟨cfg, program, hsame⟩ := he.store_cases
  · exact hstore hsame hs'
  · exact hexec hpc hi hs'
  · exact hstore hsame (hreset cfg program)

/-! ### Reset -/

theorem State.resetWith_fbOk (cfg : Config) (program : List Byte) : (State.resetWith cfg program).FbOk := fbWf_blank .low

theorem State.resetWith_memOk (cfg : Config) (program : List Byte) : (State.resetWith cfg program).MemOk :=
  memWf_loadProgram cfg.fontRom program

theorem State.resetWith_stackOk (cfg : Config) (program : List Byte) : (State.resetWith cfg program).StackOk :=
  fun _ _ => Nat.zero_le _

theorem State.resetWith_returnsOk (cfg : Config) (program : List Byte) : (State.resetWith cfg program).ReturnsOk :=
  fun _ ha => absurd ha List.not_mem_nil

/-- With no program every address from the end of the font up reads 0x00 (R46). -/
theorem State.resetWith_nil_byteAt (cfg : Config) {a : Nat} (ha : fontSize ≤ a) :
    (State.resetWith cfg []).byteAt a = 0x00#8 :=
  if_neg (Nat.not_lt.mpr ha)

theorem defaultFontRom_length : defaultFontRom.length = 256 := by
  simp [defaultFontRom, fontLow]

theorem defaultConfig_wellFormed : defaultConfig.wellFormed = true := by
  have hfont : defaultConfig.fontRom.length = 256 := defaultFontRom_length
  have hdepth : (defaultConfig.stackDepth != some 0) = true := by decide
  have hkey : keyScuOk defaultConfig.keyScu = true := by decide
  simp [Config.wellFormed, hfont, hdepth, hkey]

/-! ### Framebuffer -/

theorem ExecEffect.fbOk {s t : State} {i : Instr} (h : ExecEffect s i t) (hs : s.FbOk) : t.FbOk := by
  cases h with
  | cls => exact fbWf_blank s.mode
  | low => exact fbWf_blank .low
  | high => exact fbWf_blank .high
  | scd n => exact fbWf_scrollDown hs (countOf n)
  | scu n => exact fbWf_scrollUp hs (countOf n)
  | draw x y n => exact fbWf_fbDraw (drwPlaces x y n s) false hs
  | _ => exact hs

/-! ### Stack -/

/-- A stack within its bound that is not full has room for one more address (R28, R131). -/
theorem State.StackOk.room {s : State} (hs : s.StackOk) (hfull : s.stackFull = false) :
    ∀ d ∈ s.cfg.stackDepth, s.stk.length + 1 ≤ d := by
  intro d hd
  have hle : s.stk.length ≤ d := hs d hd
  have hne : s.stk.length ≠ d := by
    rw [Option.mem_def] at hd
    simpa [State.stackFull, hd] using hfull
  omega

theorem ExecEffect.stackOk {s t : State} {i : Instr} (h : ExecEffect s i t) (hs : s.StackOk) : t.StackOk := by
  cases h with
  | call nnn hfull => exact hs.room hfull
  | ret a rest hstk =>
    intro d hd
    have hle : s.stk.length ≤ d := hs d hd
    rw [hstk] at hle
    exact Nat.le_of_succ_le hle
  | _ => exact hs

/-! ## What an instruction leaves unchanged -/

section Frame

variable {s t : State} {i : Instr} (h : ExecEffect s i t)
include h

theorem ExecEffect.cf_eq : t.cf = s.cf := by cases h <;> rfl
theorem ExecEffect.key_eq : t.key = s.key := by cases h <;> rfl
theorem ExecEffect.cfg_eq : t.cfg = s.cfg := by cases h <;> rfl
theorem ExecEffect.schedule_eq : t.schedule = s.schedule := by cases h <;> rfl

/-- No instruction clears HF (R41). -/
theorem ExecEffect.hf_of_hf (hf : s.hf = true) : t.hf = true := by
  cases h with
  | memRange | stackOverflow | stackUnderflow | keyIndex => rfl
  | _ => exact hf

/-- Only LD Vx,K and EXIT write RUN (R277, R279). -/
theorem ExecEffect.run_eq (hk : ∀ x, i ≠ .ldVxK x) (hexit : i ≠ .exit) : t.run = s.run := by
  cases h with
  | wait x => exact absurd rfl (hk x)
  | exit => exact absurd rfl hexit
  | _ => rfl

/-- Only LD Vx,K writes WREG (R33). -/
theorem ExecEffect.wreg_cases : i = .ldVxK t.wreg ∨ t.wreg = s.wreg := by
  cases h with
  | wait x => exact .inl rfl
  | _ => exact .inr rfl

theorem ExecEffect.mayWriteReg_of_reg_ne {r : Nibble} (hr : t.reg r ≠ s.reg r) : mayWriteReg i r = true := by
  cases h with
  | registers _ v pc hv => exact hv r hr
  | draw x y n v hv => exact hv r hr
  | loadRegs x v hv => exact hv r hr
  | random x kk v hv => exact hv r hr
  | _ => exact absurd rfl hr

theorem ExecEffect.ireg_writers (hne : t.ireg ≠ s.ireg) :
    (∃ nnn, i = .ldINnn nnn) ∨ (∃ x, i = .addIVx x) ∨ (∃ x, i = .ldFVx x) ∨ (∃ x, i = .ldHfVx x) ∨
      (s.cfg.qLdst = true ∧ ((∃ x, i = .ldMemVx x) ∨ ∃ x, i = .ldVxMem x)) := by
  cases h with
  | index hi => tauto
  | storeRegs x =>
    have hq : s.cfg.qLdst = true := by
      by_contra hq
      exact hne (if_neg hq)
    exact .inr (.inr (.inr (.inr ⟨hq, .inl ⟨x, rfl⟩⟩)))
  | loadRegs x =>
    have hq : s.cfg.qLdst = true := by
      by_contra hq
      exact hne (if_neg hq)
    exact .inr (.inr (.inr (.inr ⟨hq, .inr ⟨x, rfl⟩⟩)))
  | _ => exact absurd rfl hne

theorem ExecEffect.stk_writers (hne : t.stk ≠ s.stk) : (∃ nnn, i = .call nnn) ∨ i = .ret := by
  cases h with
  | call nnn => exact .inl ⟨nnn, rfl⟩
  | ret => exact .inr rfl
  | _ => exact absurd rfl hne

theorem ExecEffect.mode_writers (hne : t.mode ≠ s.mode) : i = .low ∨ i = .high := by
  cases h with
  | low => exact .inl rfl
  | high => exact .inr rfl
  | _ => exact absurd rfl hne

theorem ExecEffect.fb_writers (hne : t.fb ≠ s.fb) :
    i = .cls ∨ (∃ x y n, i = .drw x y n) ∨ (∃ n, i = .scd n) ∨ (∃ n, i = .scu n) ∨ i = .low ∨ i = .high := by
  cases h with
  | cls | low | high | scd | scu | draw => simp
  | _ => exact absurd rfl hne

theorem ExecEffect.dt_writers (hne : t.dt ≠ s.dt) : ∃ x, i = .ldDtVx x := by
  cases h with
  | delayTimer x => exact ⟨x, rfl⟩
  | _ => exact absurd rfl hne

theorem ExecEffect.st_writers (hne : t.st ≠ s.st) : ∃ x, i = .ldStVx x := by
  cases h with
  | soundTimer x => exact ⟨x, rfl⟩
  | _ => exact absurd rfl hne

theorem ExecEffect.draws_writers (hne : t.draws ≠ s.draws) : ∃ x kk, i = .rnd x kk := by
  cases h with
  | random x kk => exact ⟨x, kk, rfl⟩
  | _ => exact absurd rfl hne

end Frame

/-! ## What an event leaves unchanged -/

section EventFrame

variable {s t : State} {e : Event} (h : EventEffect s e t)
include h

/-- The events but Reset keep the Config (R301). -/
theorem EventEffect.cfg_eq (he : ∀ cfg program, e ≠ .reset cfg program) : t.cfg = s.cfg := by
  cases h with
  | instruction _ _ hi => exact hi.cfg_eq
  | reset cfg program => exact absurd rfl (he cfg program)
  | _ => rfl

/-- The events but KeypadWrite and Reset keep KEY (R34). -/
theorem EventEffect.key_eq (he : ∀ cfg program, e ≠ .reset cfg program) (hk : ∀ snapshot, e ≠ .keypadWrite snapshot) :
    t.key = s.key := by
  cases h with
  | instruction _ _ hi => exact hi.key_eq
  | reset cfg program => exact absurd rfl (he cfg program)
  | keypad snapshot | wake snapshot => exact absurd rfl (hk snapshot)
  | _ => rfl

/-- The events but Reset do not clear CF (R41). -/
theorem EventEffect.cf_of_cf (he : ∀ cfg program, e ≠ .reset cfg program) (hcf : s.cf = true) : t.cf = true := by
  cases h with
  | instruction _ _ hi => rw [hi.cf_eq, hcf]
  | unclassified => rfl
  | reset cfg program => exact absurd rfl (he cfg program)
  | _ => exact hcf

/-- The events but Reset do not clear HF (R41). -/
theorem EventEffect.hf_of_hf (he : ∀ cfg program, e ≠ .reset cfg program) (hhf : s.hf = true) : t.hf = true := by
  cases h with
  | instruction _ _ hi => exact hi.hf_of_hf hhf
  | fetchRange => rfl
  | reset cfg program => exact absurd rfl (he cfg program)
  | _ => exact hhf

/-- In HALTED no event but Reset writes RUN (R279). -/
theorem EventEffect.halted (he : ∀ cfg program, e ≠ .reset cfg program) (hrun : s.run = .halted) : t.run = .halted := by
  cases h with
  | instruction hr => simp [hrun] at hr
  | wake _ _ hr => simp [hrun] at hr
  | shutdown => rfl
  | reset cfg program => exact absurd rfl (he cfg program)
  | _ => exact hrun

end EventFrame

theorem EventEffect.key_of_keypadWrite {s t : State} {snapshot : BitVec 16}
    (h : EventEffect s (.keypadWrite snapshot) t) : t.key = snapshot := by
  cases h <;> rfl

/-- A step that is no Reset runs an event that is none. -/
theorem step_effect_of_not_resetNext {s t : State} (h : step s = .next t) (hn : ¬ s.ResetNext) :
    EventEffect { s with schedule := s.schedule.tail } (nextEvent s).1 t ∧
      ∀ cfg program, (nextEvent s).1 ≠ .reset cfg program := by
  obtain ⟨e, rfl, he⟩ := step_effect h
  exact ⟨he, fun _ _ hr => hn (resetNext_of_nextEvent hr)⟩

theorem tickEvent_halted {s : State} (h : s.run = .halted) : tickEvent s = s := by
  simp [tickEvent, State.ticking, h]

theorem shutdownEvent_halted {s : State} (h : s.run = .halted) : shutdownEvent s = s := by
  unfold shutdownEvent
  rw [h]

/-- No Step, Tick or Shutdown acts in HALTED (R279, R281, R285). -/
theorem runEvent_halted {s : State} {e : Event} (h : s.run = .halted) (he : e = .step ∨ e = .tick ∨ e = .shutdown) :
    runEvent e s = .next s := by
  obtain rfl | rfl | rfl := he
  · exact stepEvent_idle (by simp [h])
  · exact congrArg _ (tickEvent_halted h)
  · exact congrArg _ (shutdownEvent_halted h)

/-! ## The obligations -/

/-- Settles O15: blanking, drawing and scrolling keep the shape, and nothing else writes MODE or FB. -/
theorem stepKeepsFramebufferShape : Obligations.StepKeepsFramebufferShape := by
  intro s t hs h
  refine step_keeps (P := State.FbOk) ?_ State.resetWith_fbOk (fun _ he => he.fbOk) hs h
  intro s t hsame hfb
  rw [State.FbOk, hsame.mode, hsame.fb]
  exact hfb

/-- Settles O17: CALL pushes only on a stack that is not full. -/
theorem stepKeepsStackBound : Obligations.StepKeepsStackBound := by
  intro s t hs h
  refine step_keeps (P := State.StackOk) ?_ State.resetWith_stackOk (fun _ he => he.stackOk) hs h
  intro s t hsame hstk
  rw [State.StackOk, hsame.cfg, hsame.stk]
  exact hstk

/-- Settles O19: outside RUNNING a Step is not enabled, and no other event but Reset writes RUN in HALTED. -/
theorem haltedIsTerminal : Obligations.HaltedIsTerminal := by
  intro s hrun
  refine ⟨fun hs => ?_, fun e rest hs he => ?_, fun t h hne => ?_⟩
  · rw [step_of_nil hs]
    exact runEvent_halted hrun (.inl rfl)
  · rw [step_of_cons hs]
    exact runEvent_halted hrun he
  · obtain ⟨e, hnext, he⟩ := step_effect h
    cases e with
    | reset cfg program =>
      cases he
      exact ⟨resetNext_of_nextEvent hnext, rfl⟩
    | _ => exact absurd (he.halted (fun _ _ => Event.noConfusion) hrun) hne

/-- Settles O21: the two instructions that write RUN are run, and every other one leaves it RUNNING. -/
theorem runStateEntries : Obligations.RunStateEntries := by
  intro i s t hrun h
  have he := exec_effect h
  have hwreg : t.wreg ≠ s.wreg → i = .ldVxK t.wreg := he.wreg_cases.resolve_right
  by_cases hk : ∃ x, i = .ldVxK x
  · obtain ⟨x, rfl⟩ := hk
    have ht : t.run = .awaitingKey := by cases h; rfl
    exact ⟨by simp [ht], by simp [ht], hwreg⟩
  by_cases hexit : i = .exit
  · subst hexit
    have ht : t.run = .halted := by cases h; rfl
    exact ⟨by simp [ht], by simp [ht], hwreg⟩
  · have ht : t.run = .running := (he.run_eq (not_exists.mp hk) hexit).trans hrun
    exact ⟨by simp [ht, hk], by simp [ht, hexit], hwreg⟩

/-- Settles O22: the two errors set their bit and no other event but Reset writes it. -/
theorem errorBitsAreSticky : Obligations.ErrorBitsAreSticky := by
  intro s t h hn
  obtain ⟨he, hne⟩ := step_effect_of_not_resetNext h hn
  exact ⟨he.cf_of_cf hne, he.hf_of_hf hne⟩

/-- Settles O23: no instruction writes KEY or the Config, and of the other events KeypadWrite alone writes KEY. -/
theorem keypadAndConfigWriters : Obligations.KeypadAndConfigWriters := by
  intro s t h hn
  obtain ⟨he, hne⟩ := step_effect_of_not_resetNext h hn
  refine ⟨he.cfg_eq hne, fun hk => he.key_eq hne fun snapshot hnext => ?_, fun snapshot rest hs => ?_⟩
  · obtain ⟨rest, hs⟩ := schedule_of_nextEvent (s := s) (by simp [hnext])
    exact hk snapshot rest (hnext ▸ hs)
  · rw [nextEvent_fst_of_cons hs] at he
    exact he.key_of_keypadWrite

/-- Settles O24: DRW sets DIRTY exactly when it emits no MemRange report. -/
theorem dirtyFlagWriters : Obligations.DirtyFlagWriters := by
  intro i s t h
  cases exec_effect h with
  | memRange hi =>
    obtain ⟨x, y, n, rfl⟩ | ⟨x, rfl⟩ | ⟨x, rfl⟩ | ⟨x, rfl⟩ := hi
    · simp [handlerFault_eq]
    all_goals rfl
  | keyIndex x hi => obtain rfl | rfl := hi <;> rfl
  | index hi => obtain ⟨x, rfl⟩ | ⟨x, rfl⟩ | ⟨x, rfl⟩ | ⟨x, rfl⟩ := hi <;> rfl
  | registers hi => cases i <;> cases hi <;> rfl
  | draw => simp
  | _ => rfl

/-- Settles O25: each effect on the registers carries its own bound, and every other effect leaves them. -/
theorem registerWriters : Obligations.RegisterWriters :=
  fun _ _ _ _ h => (exec_effect h).mayWriteReg_of_reg_ne

/-- Settles O27, field by field from the effects of an instruction. -/
theorem specialStateWriters : Obligations.SpecialStateWriters := by
  intro i s t h
  have he := exec_effect h
  exact ⟨he.ireg_writers, he.stk_writers, he.mode_writers, he.fb_writers, he.dt_writers, he.st_writers,
    he.draws_writers, he.cf_eq, he.key_eq, he.cfg_eq, he.schedule_eq⟩

/-- Settles O9, from what holds after a Reset with any Config and program. -/
theorem resetStateIsWellFormed : Obligations.ResetStateIsWellFormed :=
  ⟨rfl, rfl, fun _ ha _ => State.resetWith_nil_byteAt defaultConfig (Nat.le_trans (by decide) ha),
    State.resetWith_fbOk _ _, State.resetWith_memOk _ _, State.resetWith_stackOk _ _, State.resetWith_returnsOk _ _, rfl,
    defaultConfig_wellFormed⟩

end Sys2Proof.Machine
end

section
/-! SUPPORT. Memory (20_memory.md): its canonical form along every step, which instructions and events may write it, and a
fetch from outside it. -/

namespace Sys2Proof.Machine

/-! ## What keeps memory and what writes it -/

theorem SameStore.memOk {s t : State} (h : SameStore s t) (hs : s.MemOk) : t.MemOk := by
  rw [State.MemOk, h.cfg, h.mem]
  exact hs

theorem SameStore.byteAt_eq {s t : State} (h : SameStore s t) (a : Nat) : t.byteAt a = s.byteAt a := by
  unfold State.byteAt
  rw [h.cfg, h.mem]

/-- The two storing instructions write through `State.setBytes`, which keeps the canonical form. -/
theorem ExecEffect.memOk {s t : State} {i : Instr} (h : ExecEffect s i t) (hs : s.MemOk) : t.MemOk := by
  cases h with
  | storeDigits x =>
    have hstore := s.setBytes_memWf s.ireg.toNat (bcdDigits (s.reg x)) hs
    rwa [State.setBytes_cfg] at hstore
  | storeRegs x =>
    have hstore := s.setBytes_memWf s.ireg.toNat (s.firstRegs (blockLength x)) hs
    rwa [State.setBytes_cfg] at hstore
  | _ => exact hs

/-- Only LD B,Vx and LD [I],Vx write memory (R62, R71). -/
theorem ExecEffect.byteAt_writers {s t : State} {i : Instr} (h : ExecEffect s i t) {a : Nat}
    (hne : t.byteAt a ≠ s.byteAt a) : ∃ x, i = .ldBVx x ∨ i = .ldMemVx x := by
  cases h with
  | storeDigits x => exact ⟨x, .inl rfl⟩
  | storeRegs x => exact ⟨x, .inr rfl⟩
  | _ => exact absurd rfl hne

/-- The host events but Reset leave the store alone. -/
theorem EventEffect.sameStore {s t : State} {e : Event} (h : EventEffect s e t) (hstep : e ≠ .step)
    (hreset : ∀ cfg program, e ≠ .reset cfg program) : SameStore s t := by
  cases h with
  | idle | fetchRange | unclassified | instruction => exact absurd rfl hstep
  | reset cfg program => exact absurd rfl (hreset cfg program)
  | _ => exact ⟨rfl, rfl, rfl, rfl, rfl⟩

/-! ## A Step as the next event -/

/-- Taking the Step off the schedule changes nothing else. -/
theorem State.StepNext.eq {s s' : State} (h : s.StepNext s') : s' = { s with schedule := s'.schedule } := by
  obtain ⟨-, rfl⟩ | ⟨rest, -, rfl⟩ := h <;> rfl

theorem State.StepNext.step_eq {s s' : State} (h : s.StepNext s') : step s = stepEvent s' := by
  obtain ⟨hs, rfl⟩ | ⟨rest, hs, rfl⟩ := h
  · exact step_of_nil hs
  · exact step_of_cons hs

/-- The word at pc lies in memory only if both of its bytes do (R64). -/
theorem fetchAndExec_fetchRange {s : State} (hpc : memSize ≤ s.pc.toNat + 1) :
    fetchAndExec s = .next (Faulted s .fetchRange s.pc.toNat) :=
  if_pos hpc

/-! ## The obligations -/

/-- Settles O16: Reset builds the canonical form, the two storing instructions keep it, and nothing else writes memory. -/
theorem stepKeepsMemoryCanonical : Obligations.StepKeepsMemoryCanonical :=
  fun _ _ hs h => step_keeps (P := State.MemOk) SameStore.memOk State.resetWith_memOk (fun _ he => he.memOk) hs h

/-- Settles O26, from the effects of an instruction and of an event. -/
theorem memoryWriters : Obligations.MemoryWriters := by
  refine ⟨fun i s t a h hne => (exec_effect h).byteAt_writers hne, fun s t e rest hs hstep hn h a => ?_⟩
  obtain ⟨he, hreset⟩ := step_effect_of_not_resetNext h hn
  rw [nextEvent_fst_of_cons hs] at he hreset
  exact (he.sameStore hstep hreset).byteAt_eq a

/-- Settles O12: the Step fetches, and the range check comes before anything else. -/
theorem fetchOutsideMemoryFaults : Obligations.FetchOutsideMemoryFaults := by
  intro s s' hnext hrun hpc
  have hrun' : s'.run = .running := by rw [hnext.eq]; exact hrun
  have hpc' : s'.pc = s.pc := by rw [hnext.eq]
  rw [hnext.step_eq, stepEvent_running hrun', fetchAndExec_fetchRange (hpc'.symm ▸ hpc), hpc']

end Sys2Proof.Machine
end

section
/-! SUPPORT. Decoder, classifier and encoder (30_encoding.md): the first matching row answers both (`classify_eq_find?`), a
row is determined by its family and key, an instruction's own row takes its canonical word, and a row builds its instruction
from the word's significant bits. -/

namespace Sys2Proof

open Sys2Proof.Laws

/-! ## The classifier -/

theorem knownSet_eq (k : Word) (f : Family) :
    knownSet k f = ((rows k).filter fun r => r.family == f).map Row.key := by
  cases f <;> rfl

/-- UNCLASSIFIED is the failure of all four lookups (R107). -/
theorem classify_eq_none_iff (k w : Word) : classify k w = none ↔ ∀ f : Family, w &&& f.mask ∉ knownSet k f := by
  simp only [classify, List.contains_iff_mem]
  refine ⟨fun h f => ?_, fun h => ?_⟩
  · split_ifs at h with h1 h2 h3 h4
    cases f <;> assumption
  · rw [if_neg (h .f1), if_neg (h .f2), if_neg (h .f3), if_neg (h .f4)]

/-- The first family whose set holds the masked word wins (R94). -/
theorem classify_eq_some {k w : Word} {f : Family} (hmem : w &&& f.mask ∈ knownSet k f)
    (hfirst : ∀ g : Family, g.number < f.number → w &&& g.mask ∉ knownSet k g) :
    classify k w = some (f, w &&& f.mask) := by
  cases f with
  | f1 => simp [classify, hmem]
  | f2 => simp [classify, hmem, hfirst .f1 (by decide)]
  | f3 => simp [classify, hmem, hfirst .f1 (by decide), hfirst .f2 (by decide)]
  | f4 => simp [classify, hmem, hfirst .f1 (by decide), hfirst .f2 (by decide), hfirst .f3 (by decide)]

theorem rowsFamily1_family : ∀ r ∈ rowsFamily1, r.family = .f1 := by decide
theorem rowsFamily2_family : ∀ r ∈ rowsFamily2, r.family = .f2 := by decide
theorem rowsFamily3_family : ∀ r ∈ rowsFamily3, r.family = .f3 := by decide
theorem rowsFamily4_family (k : Word) : ∀ r ∈ rowsFamily4 k, r.family = .f4 := by simp [rowsFamily4]

/-- Within the rows of one family, the lookup of the masked word finds the row that takes the word. -/
theorem find?_takes_of_family {k : Word} {f : Family} {l : List Row} (hs : knownSet k f = l.map Row.key)
    (hl : ∀ r ∈ l, r.family = f) (w : Word) :
    (l.find? fun r => r.takes w).map (fun r => (r.family, r.key)) =
      if (knownSet k f).contains (w &&& f.mask) then some (f, w &&& f.mask) else none := by
  rw [hs]
  clear hs
  induction l with
  | nil => rfl
  | cons r l ih =>
    rw [List.forall_mem_cons] at hl
    obtain ⟨rfl, hl⟩ := hl
    by_cases h : w &&& r.family.mask = r.key
    · simp [Row.takes, h]
    · simpa [Row.takes, h] using ih hl

/-- A failed lookup leaves the answer to the next one. -/
theorem ite_some_or {α : Type} (p : Prop) [Decidable p] (a : α) (o : Option α) :
    (if p then some a else none).or o = if p then some a else o := by
  split <;> rfl

/-- The classifier answers the family and key of the first row that takes the word. -/
theorem classify_eq_find? (k w : Word) :
    classify k w = ((rows k).find? fun r => r.takes w).map fun r => (r.family, r.key) := by
  have h1 := find?_takes_of_family (k := k) rfl rowsFamily1_family w
  have h2 := find?_takes_of_family (k := k) rfl rowsFamily2_family w
  have h3 := find?_takes_of_family (k := k) rfl rowsFamily3_family w
  have h4 := find?_takes_of_family rfl (rowsFamily4_family k) w
  simp only [classify, rows, List.find?_append, Option.map_or, h1, h2, h3, h4, Option.or_assoc, ite_some_or]

/-! ## The decoder -/

theorem decodeWord_eq_ok_iff {k w : Word} {i : Instr} :
    decodeWord k w = .ok i ↔ ∃ r, ((rows k).find? fun r => r.takes w) = some r ∧ r.build (fields w) = i := by
  unfold decodeWord
  cases (rows k).find? fun r => r.takes w <;> simp

theorem decodeWord_eq_error_iff (k w : Word) :
    decodeWord k w = .error (.unclassified w) ↔ ((rows k).find? fun r => r.takes w) = none := by
  unfold decodeWord
  cases (rows k).find? fun r => r.takes w <;> simp

/-- What a row makes has the row's family and key (R96). -/
theorem family_id_build {k : Word} {r : Row} (hr : r ∈ rows k) (d : Fields) :
    (r.build d).family = r.family ∧ (r.build d).id k = r.key := by
  revert r
  simp [rows, rowsFamily1, rowsFamily2, rowsFamily3, rowsFamily4, Instr.family, Instr.id]

/-- The rows of one family have different keys: R104 keeps KEY_SCU off SCD's. -/
theorem knownSet_nodup {k : Word} (hk : keyScuOk k = true) (f : Family) : (knownSet k f).Nodup := by
  cases f with
  | f1 => simp only [knownSet]; decide
  | f2 => simp only [knownSet]; decide
  | f3 => simp only [knownSet]; decide
  | f4 =>
    obtain ⟨-, hC⟩ : _ ∧ k ≠ 0x00C0#16 := by simpa [keyScuOk] using hk
    simpa [knownSet, rowsFamily4] using hC.symm

/-- A row is determined by its family and key. -/
theorem row_unique {k : Word} (hk : keyScuOk k = true) {r r' : Row} (hr : r ∈ rows k) (hr' : r' ∈ rows k)
    (hf : r.family = r'.family) (hkey : r.key = r'.key) : r = r' := by
  have hnodup := knownSet_nodup hk r'.family
  rw [knownSet_eq] at hnodup
  exact List.inj_on_of_nodup_map hnodup (by simpa [hr] using hf) (by simpa using hr') hkey

/-- Which row the decoder takes is settled by what the classifier answers. -/
theorem decodeWord_of_classify {k w : Word} (hk : keyScuOk k = true) {r : Row} (hr : r ∈ rows k)
    (hc : classify k w = some (r.family, r.key)) : decodeWord k w = .ok (r.build (fields w)) := by
  rw [classify_eq_find?, Option.map_eq_some_iff] at hc
  obtain ⟨r', hfind, heq⟩ := hc
  obtain ⟨hf, hkey⟩ := Prod.mk.inj heq
  have hrow : r' = r := row_unique hk (List.mem_of_find?_eq_some hfind) hr hf hkey
  exact decodeWord_eq_ok_iff.2 ⟨r, hrow ▸ hfind, rfl⟩

/-- Settles O2: both answer from the first row that takes the word. -/
theorem decoderAgreesWithClassifier : Obligations.DecoderAgreesWithClassifier := by
  refine fun k w => ⟨?_, fun i hi => ?_⟩
  · rw [decodeWord_eq_error_iff, classify_eq_find?, Option.map_eq_none_iff]
  · obtain ⟨r, hfind, rfl⟩ := decodeWord_eq_ok_iff.1 hi
    obtain ⟨hf, hid⟩ := family_id_build (List.mem_of_find?_eq_some hfind) (fields w)
    rw [classify_eq_find?, hfind, hf, hid]
    rfl

/-! ## The encoder -/

/-- The canonical word under its family's mask is the canonical id (R95, R96). -/
theorem encode_and_mask : ∀ i : Instr, KeyBits.Statement i
  | .cls => KeyBits.cls
  | .ret => KeyBits.ret
  | .scr => KeyBits.scr
  | .scl => KeyBits.scl
  | .exit => KeyBits.exit
  | .low => KeyBits.low
  | .high => KeyBits.high
  | .skp x => KeyBits.skp x
  | .sknp x => KeyBits.sknp x
  | .ldVxDt x => KeyBits.ldVxDt x
  | .ldVxK x => KeyBits.ldVxK x
  | .ldDtVx x => KeyBits.ldDtVx x
  | .ldStVx x => KeyBits.ldStVx x
  | .addIVx x => KeyBits.addIVx x
  | .ldFVx x => KeyBits.ldFVx x
  | .ldHfVx x => KeyBits.ldHfVx x
  | .ldBVx x => KeyBits.ldBVx x
  | .ldMemVx x => KeyBits.ldMemVx x
  | .ldVxMem x => KeyBits.ldVxMem x
  | .ldRVx x => KeyBits.ldRVx x
  | .ldVxR x => KeyBits.ldVxR x
  | .seVxVy x y => KeyBits.seVxVy x y
  | .ldVxVy x y => KeyBits.ldVxVy x y
  | .orVxVy x y => KeyBits.orVxVy x y
  | .andVxVy x y => KeyBits.andVxVy x y
  | .xorVxVy x y => KeyBits.xorVxVy x y
  | .addVxVy x y => KeyBits.addVxVy x y
  | .subVxVy x y => KeyBits.subVxVy x y
  | .shrVxVy x y => KeyBits.shrVxVy x y
  | .subnVxVy x y => KeyBits.subnVxVy x y
  | .shlVxVy x y => KeyBits.shlVxVy x y
  | .sneVxVy x y => KeyBits.sneVxVy x y
  | .jp nnn => KeyBits.jp nnn
  | .call nnn => KeyBits.call nnn
  | .seVxKk x kk => KeyBits.seVxKk x kk
  | .sneVxKk x kk => KeyBits.sneVxKk x kk
  | .ldVxKk x kk => KeyBits.ldVxKk x kk
  | .addVxKk x kk => KeyBits.addVxKk x kk
  | .ldINnn nnn => KeyBits.ldINnn nnn
  | .jpV0 nnn => KeyBits.jpV0 nnn
  | .rnd x kk => KeyBits.rnd x kk
  | .drw x y n => KeyBits.drw x y n
  | .scd n => KeyBits.scd n
  | .scu n => KeyBits.scu n

theorem fields_wordOfAddr_nnn (op : Nibble) (nnn : Addr12) : (fields (wordOfAddr op nnn)).nnn = nnn := by
  rw [wordOfAddr_eq, fields_wordOfNibbles, ← addr_eq_nibbles]

theorem fields_wordOfImm_x (op x : Nibble) (kk : Byte) : (fields (wordOfImm op x kk)).x = x := by
  rw [wordOfImm_eq, fields_wordOfNibbles]

theorem fields_wordOfImm_kk (op x : Nibble) (kk : Byte) : (fields (wordOfImm op x kk)).kk = kk := by
  rw [wordOfImm_eq, fields_wordOfNibbles, ← byte_eq_nibbles]

/-- The rows stand in the order of the constructors, and each reads an instruction's operands back from its canonical
word (R92). -/
theorem rows_getElem?_ctorIdx {k : Word} (hk : keyScuOk k = true) (i : Instr) :
    ∃ r, (rows k)[i.ctorIdx]? = some r ∧ r.build (fields (encode k i)) = i := by
  cases i with
  | scu n =>
    rw [encode_scu hk]
    exact ⟨_, rfl, by simp [fields_wordOfNibbles]⟩
  | _ =>
    refine ⟨_, rfl, ?_⟩
    simp [encode, fields_wordOfNibbles, fields_wordOfAddr_nnn, fields_wordOfImm_x, fields_wordOfImm_kk]

/-- Every instruction has a row of its own. -/
theorem exists_row {k : Word} (hk : keyScuOk k = true) (i : Instr) :
    ∃ r ∈ rows k, r.family = i.family ∧ r.key = i.id k ∧ r.build (fields (encode k i)) = i := by
  obtain ⟨r, hr, hbuild⟩ := rows_getElem?_ctorIdx hk i
  have hmem : r ∈ rows k := List.mem_of_getElem? hr
  obtain ⟨hf, hid⟩ := family_id_build hmem (fields (encode k i))
  rw [hbuild] at hf hid
  exact ⟨r, hmem, hf.symm, hid.symm, hbuild⟩

/-! ## Nibbles of a masked word -/

@[simp] theorem extractLsb'_wordOfNibbles_op (a b c d : Nibble) : (wordOfNibbles a b c d).extractLsb' 12 4 = a :=
  ((wordOfNibbles_inj _ _ _ _ _ _ _ _).1 (word_eq_nibbles (wordOfNibbles a b c d))).1.symm

@[simp] theorem extractLsb'_wordOfNibbles_y (a b c d : Nibble) : (wordOfNibbles a b c d).extractLsb' 4 4 = c :=
  congrArg Fields.y (fields_wordOfNibbles a b c d)

@[simp] theorem extractLsb'_wordOfNibbles_n (a b c d : Nibble) : (wordOfNibbles a b c d).extractLsb' 0 4 = d :=
  congrArg Fields.n (fields_wordOfNibbles a b c d)

/-- The masks of families 1 to 3 keep the op nibble. -/
theorem opNibble_and_mask (w : Word) {f : Family} (hf : f ≠ .f4) :
    (w &&& f.mask).extractLsb' 12 4 = w.extractLsb' 12 4 := by
  rw [word_eq_nibbles w]
  cases f with
  | f1 => simp [and_mask_f1]
  | f2 => simp [and_mask_f2]
  | f3 => simp [and_mask_f3]
  | f4 => exact absurd rfl hf

theorem opNibble_of_mem_f1 {k w : Word} (h : w &&& Family.f1.mask ∈ knownSet k .f1) :
    w.extractLsb' 12 4 ∈ [0x0#4, 0xE#4, 0xF#4] := by
  have hkeys : ∀ r ∈ rowsFamily1, r.key.extractLsb' 12 4 ∈ [0x0#4, 0xE#4, 0xF#4] := by decide
  obtain ⟨r, hr, hkey⟩ := List.mem_map.1 h
  exact opNibble_and_mask w (f := .f1) (by decide) ▸ hkey ▸ hkeys r hr

theorem opNibble_of_mem_f2 {k w : Word} (h : w &&& Family.f2.mask ∈ knownSet k .f2) :
    w.extractLsb' 12 4 ∈ [0x5#4, 0x8#4, 0x9#4] := by
  have hkeys : ∀ r ∈ rowsFamily2, r.key.extractLsb' 12 4 ∈ [0x5#4, 0x8#4, 0x9#4] := by decide
  obtain ⟨r, hr, hkey⟩ := List.mem_map.1 h
  exact opNibble_and_mask w (f := .f2) (by decide) ▸ hkey ▸ hkeys r hr

/-- S3 is a set of op nibbles: those of no other family (R101). -/
theorem mem_knownSet_f3_iff (k w : Word) :
    w &&& Family.f3.mask ∈ knownSet k .f3 ↔ w.extractLsb' 12 4 ∉ [0x0#4, 0x5#4, 0x8#4, 0x9#4, 0xE#4, 0xF#4] := by
  have hops : ∀ a : Nibble, wordOfNibbles a 0#4 0#4 0#4 ∈ rowsFamily3.map Row.key ↔
      a ∉ [0x0#4, 0x5#4, 0x8#4, 0x9#4, 0xE#4, 0xF#4] := by decide
  conv_lhs => rw [word_eq_nibbles w, and_mask_f3]
  exact hops _

/-- Family 4 reads the y nibble alone (R104). -/
theorem mem_knownSet_f4_iff {k : Word} (hk : keyScuOk k = true) (w : Word) :
    w &&& Family.f4.mask ∈ knownSet k .f4 ↔ w.extractLsb' 4 4 = 0xC#4 ∨ w.extractLsb' 4 4 = k.extractLsb' 4 4 := by
  have hC : (0x00C0#16 : Word) = wordOfNibbles 0#4 0#4 0xC#4 0#4 := by decide
  conv_lhs => rw [word_eq_nibbles w, and_mask_f4]
  conv_lhs => rw [(keyScuOk_nibble hk).1]
  simp [knownSet, rowsFamily4, hC, wordOfNibbles_inj]

/-- A family 1 pattern with op nibble 0 has y nibble E, or F and a low nibble from B up (R98). -/
theorem scroll_notMem_f1 (k : Word) {y n : Nibble} (hE : y ≠ 0xE#4) (hF : y = 0xF#4 → n.toNat < 0xB) :
    wordOfNibbles 0#4 0#4 y n &&& Family.f1.mask ∉ knownSet k .f1 := by
  have hkeys : ∀ r ∈ rowsFamily1, r.key.extractLsb' 12 4 = 0#4 → r.key.extractLsb' 4 4 = 0xE#4 ∨
      r.key.extractLsb' 4 4 = 0xF#4 ∧ 0xB ≤ (r.key.extractLsb' 0 4).toNat := by decide
  rw [and_mask_f1]
  intro h
  obtain ⟨r, hr, hkey⟩ := List.mem_map.1 h
  have hr := hkeys r hr
  rw [hkey, extractLsb'_wordOfNibbles_op, extractLsb'_wordOfNibbles_y, extractLsb'_wordOfNibbles_n] at hr
  obtain hy | ⟨hy, hn⟩ := hr rfl
  · exact hE hy
  · exact Nat.not_lt.2 hn (hF hy)

/-! ## The canonical word's family -/

theorem eq_scroll_of_family_f4 {i : Instr} (h : i.family = .f4) : ∃ n, i = .scd n ∨ i = .scu n := by
  cases i with
  | scd n => exact ⟨n, .inl rfl⟩
  | scu n => exact ⟨n, .inr rfl⟩
  | _ => cases h

/-- The words of family 4 that its instructions have for their own (R104): op and x nibble 0, and no family 1 pattern. -/
theorem encode_scroll {k : Word} (hk : keyScuOk k = true) {i : Instr} (hi : i.wellFormed k = true) (hf : i.family = .f4) :
    ∃ y n, encode k i = wordOfNibbles 0#4 0#4 y n ∧ y ≠ 0xE#4 ∧ (y = 0xF#4 → n.toNat < 0xB) := by
  obtain ⟨n, rfl | rfl⟩ := eq_scroll_of_family_f4 hf
  · exact ⟨0xC#4, n, rfl, by decide, fun h => absurd h (by decide)⟩
  · obtain ⟨hky, hE, -⟩ := keyScuOk_nibble hk
    refine ⟨k.extractLsb' 4 4, n, encode_scu hk n, hE, fun hF => ?_⟩
    have hk' : k = 0x00F0#16 := by rw [hky, hF]; rfl
    simpa [Instr.wellFormed, hk'] using hi

/-- The families asked before an instruction's own do not take its canonical word (R94). Between families 1 and 4 the y and
the low nibble tell it, between any other two the op nibble. -/
theorem encode_notMem_earlier {k : Word} (hk : keyScuOk k = true) {i : Instr} (hi : i.wellFormed k = true)
    (hmem : encode k i &&& i.family.mask ∈ knownSet k i.family) {g : Family} (hg : g.number < i.family.number) :
    encode k i &&& g.mask ∉ knownSet k g := by
  intro h
  cases hf : i.family with
  | f1 => rw [hf] at hg; cases g <;> exact absurd hg (by decide)
  | f2 =>
    rw [hf] at hg hmem
    have hop := opNibble_of_mem_f2 hmem
    cases g with
    | f1 => have hop' := opNibble_of_mem_f1 h; grind
    | _ => exact absurd hg (by decide)
  | f3 =>
    rw [hf] at hg hmem
    have hop := (mem_knownSet_f3_iff k _).1 hmem
    cases g with
    | f1 => have hop' := opNibble_of_mem_f1 h; grind
    | f2 => have hop' := opNibble_of_mem_f2 h; grind
    | _ => exact absurd hg (by decide)
  | f4 =>
    obtain ⟨y, n, hword, hE, hF⟩ := encode_scroll hk hi hf
    rw [hword] at h
    cases g with
    | f1 => exact scroll_notMem_f1 k hE hF h
    | f2 => simpa using opNibble_of_mem_f2 h
    | f3 => exact (mem_knownSet_f3_iff k _).1 h (by simp)
    | f4 => rw [hf] at hg; exact absurd hg (by decide)

theorem classify_encode {k : Word} (hk : keyScuOk k = true) {i : Instr} (hi : i.wellFormed k = true) :
    classify k (encode k i) = some (i.family, i.id k) := by
  have hkey : encode k i &&& i.family.mask = i.id k := encode_and_mask i k hk
  have hmem : encode k i &&& i.family.mask ∈ knownSet k i.family := by
    obtain ⟨r, hr, hf, hid, -⟩ := exists_row hk i
    rw [hkey, knownSet_eq]
    exact List.mem_map.2 ⟨r, List.mem_filter.2 ⟨hr, by simpa using hf⟩, hid⟩
  rw [classify_eq_some hmem fun g hg => encode_notMem_earlier hk hi hmem hg, hkey]

theorem decodeWord_encode {k : Word} (hk : keyScuOk k = true) {i : Instr} (hi : i.wellFormed k = true) :
    decodeWord k (encode k i) = .ok i := by
  obtain ⟨r, hr, hf, hid, hbuild⟩ := exists_row hk i
  rw [decodeWord_of_classify hk hr (by rw [classify_encode hk hi, hf, hid]), hbuild]

theorem wordOfBytes_high_low (w : Word) : wordOfBytes (highByte w) (lowByte w) = w :=
  (BitVec.extractLsb'_append_extractLsb'_eq_extractLsb' rfl).trans BitVec.extractLsb'_eq_self

/-- Settles O1: the canonical word classifies to the instruction's own row, and the row reads its operands back. -/
theorem decodeEncodeRoundTrip : Obligations.DecodeEncodeRoundTrip := by
  refine ⟨fun k i rest hk hi => ⟨decodeWord_encode hk hi, ?_, classify_encode hk hi⟩, fun k f w => classify_eq_some⟩
  simp [encodeBytes, decode, wordOfBytes_high_low, decodeWord_encode hk hi]

/-! ## Don't-care bits -/

theorem wordOfAddr_append (op b c d : Nibble) : wordOfAddr op (b ++ c ++ d) = wordOfNibbles op b c d :=
  append_assoc_addr _ _ _ _

theorem wordOfImm_append (op b c d : Nibble) : wordOfImm op b (c ++ d) = wordOfNibbles op b c d :=
  append_assoc_imm _ _ _ _

theorem and_significantBits_f1 (key : Word) (a b c d : Nibble) :
    wordOfNibbles a b c d &&& significantBits .f1 key =
      wordOfNibbles a (if key &&& 0xF000#16 = 0#16 then 0#4 else b) c d := by
  simp only [significantBits, beq_iff_eq]
  split
  · exact and_mask_f1 a b c d
  · exact BitVec.and_allOnes

theorem and_significantBits_f4 (key : Word) (a b c d : Nibble) :
    wordOfNibbles a b c d &&& significantBits .f4 key = wordOfNibbles 0#4 0#4 c d := by
  have hbits : significantBits .f4 key = wordOfNibbles 0x0#4 0x0#4 0xF#4 0xF#4 := rfl
  rw [hbits, wordOfNibbles_and]
  simp

theorem encode_build_f1 {k : Word} {r : Row} (hr : r ∈ rowsFamily1) {a b c d : Nibble}
    (h : wordOfNibbles a 0#4 c d = r.key) :
    encode k (r.build ⟨b ++ c ++ d, c ++ d, b, c, d⟩) = wordOfNibbles a b c d &&& significantBits .f1 r.key := by
  rw [word_eq_nibbles r.key, wordOfNibbles_inj] at h
  obtain ⟨rfl, -, rfl, rfl⟩ := h
  rw [and_significantBits_f1]
  revert r
  simp [rowsFamily1, encode]

theorem encode_build_f2 {k : Word} {r : Row} (hr : r ∈ rowsFamily2) {a b c d : Nibble}
    (h : wordOfNibbles a 0#4 0#4 d = r.key) :
    encode k (r.build ⟨b ++ c ++ d, c ++ d, b, c, d⟩) = wordOfNibbles a b c d := by
  rw [word_eq_nibbles r.key, wordOfNibbles_inj] at h
  obtain ⟨rfl, -, -, rfl⟩ := h
  revert r
  simp [rowsFamily2, encode]

theorem encode_build_f3 {k : Word} {r : Row} (hr : r ∈ rowsFamily3) {a b c d : Nibble}
    (h : wordOfNibbles a 0#4 0#4 0#4 = r.key) :
    encode k (r.build ⟨b ++ c ++ d, c ++ d, b, c, d⟩) = wordOfNibbles a b c d := by
  rw [word_eq_nibbles r.key, wordOfNibbles_inj] at h
  obtain ⟨rfl, -⟩ := h
  revert r
  simp [rowsFamily3, encode, wordOfAddr_append, wordOfImm_append]

theorem encode_build_f4 {k : Word} (hk : keyScuOk k = true) {r : Row} (hr : r ∈ rowsFamily4 k) {b c d : Nibble}
    (h : wordOfNibbles 0#4 0#4 c 0#4 = r.key) :
    encode k (r.build ⟨b ++ c ++ d, c ++ d, b, c, d⟩) = wordOfNibbles 0#4 0#4 c d := by
  have hc : c = r.key.extractLsb' 4 4 := by rw [← h, extractLsb'_wordOfNibbles_y]
  simp only [rowsFamily4, List.mem_cons, List.not_mem_nil, or_false] at hr
  obtain rfl | rfl := hr
  · rw [hc]
    rfl
  · rw [hc]
    exact encode_scu hk d

/-- What a row builds from a word it takes encodes to the word with its don't-care bits cleared (R105). -/
theorem encode_build {k : Word} (hk : keyScuOk k = true) {r : Row} (hr : r ∈ rows k) {w : Word}
    (h : w &&& r.family.mask = r.key) : encode k (r.build (fields w)) = w &&& significantBits r.family r.key := by
  rw [word_eq_nibbles w] at h ⊢
  rw [fields_wordOfNibbles]
  simp only [rows, List.mem_append, or_assoc] at hr
  obtain hr | hr | hr | hr := hr
  · rw [rowsFamily1_family r hr, and_mask_f1] at h
    rw [rowsFamily1_family r hr, encode_build_f1 hr h]
  · rw [rowsFamily2_family r hr, and_mask_f2] at h
    rw [rowsFamily2_family r hr, encode_build_f2 hr h]
    exact BitVec.and_allOnes.symm
  · rw [rowsFamily3_family r hr, and_mask_f3] at h
    rw [rowsFamily3_family r hr, encode_build_f3 hr h]
    exact BitVec.and_allOnes.symm
  · rw [rowsFamily4_family k r hr, and_mask_f4] at h
    rw [rowsFamily4_family k r hr, encode_build_f4 hk hr h, and_significantBits_f4]

/-- Settles O3: the row that takes the word builds its instruction from the word's significant bits. -/
theorem encodeDecodeCanonical : Obligations.EncodeDecodeCanonical := by
  intro k w i hk hi
  obtain ⟨r, hfind, rfl⟩ := decodeWord_eq_ok_iff.1 hi
  have hr : r ∈ rows k := List.mem_of_find?_eq_some hfind
  have htakes : w &&& r.family.mask = r.key := by simpa [Row.takes] using List.find?_some hfind
  obtain ⟨hf, hid⟩ := family_id_build hr (fields w)
  rw [encode_build hk hr htakes, hf, hid]

/-! ## The default KEY_SCU -/

theorem keyScuOk_default : keyScuOk defaultKeyScu = true := by decide

/-- Settles O4: families 1 and 2 by their sets, family 3 by the op nibble, family 4 by the y nibble. -/
theorem unclassifiedWordsExactly : Obligations.UnclassifiedWordsExactly := by
  intro w
  have hall : (∀ f : Family, w &&& f.mask ∉ knownSet defaultKeyScu f) ↔
      w &&& Family.f3.mask ∉ knownSet defaultKeyScu .f3 ∧ w &&& Family.f1.mask ∉ knownSet defaultKeyScu .f1 ∧
        w &&& Family.f2.mask ∉ knownSet defaultKeyScu .f2 ∧ w &&& Family.f4.mask ∉ knownSet defaultKeyScu .f4 :=
    ⟨fun h => ⟨h .f3, h .f1, h .f2, h .f4⟩, fun ⟨h3, h1, h2, h4⟩ f => by cases f <;> assumption⟩
  rw [classify_eq_none_iff, hall, mem_knownSet_f3_iff, not_not, mem_knownSet_f4_iff keyScuOk_default, not_or,
    and_comm (a := ¬ _ = 0xC#4)]
  exact Iff.rfl

/-- A word that families 1 to 3 reject decodes by the row of family 4 that has its y nibble (R106). -/
theorem decodeWord_scroll {k w : Word} (hk : keyScuOk k = true)
    (hfirst : ∀ g : Family, g.number < Family.f4.number → w &&& g.mask ∉ knownSet k g) {r : Row}
    (hr : r ∈ rowsFamily4 k) (hy : w.extractLsb' 4 4 = r.key.extractLsb' 4 4) :
    decodeWord k w = .ok (r.build (fields w)) := by
  have hrow : r.family = .f4 ∧ r.key = wordOfNibbles 0#4 0#4 (r.key.extractLsb' 4 4) 0#4 := by
    simp only [rowsFamily4, List.mem_cons, List.not_mem_nil, or_false] at hr
    obtain rfl | rfl := hr
    · exact ⟨rfl, rfl⟩
    · exact ⟨rfl, (keyScuOk_nibble hk).1⟩
  obtain ⟨hf, hkey⟩ := hrow
  have hmask : w &&& Family.f4.mask = r.key := by rw [word_eq_nibbles w, and_mask_f4, hy, ← hkey]
  refine decodeWord_of_classify hk (List.mem_append_right _ hr) ?_
  rw [hf, ← hmask]
  exact classify_eq_some (hmask ▸ List.mem_map_of_mem hr) hfirst

/-- Settles O5: the op nibble is no family 3 key, so family 4 decides by the y nibble. -/
theorem fallThroughWordsScroll : Obligations.FallThroughWordsScroll := by
  intro w h1 h2 hop
  have hfirst : ∀ g : Family, g.number < Family.f4.number → w &&& g.mask ∉ knownSet defaultKeyScu g := by
    intro g hg
    cases g with
    | f1 => exact h1
    | f2 => exact h2
    | f3 => exact fun h3 => (mem_knownSet_f3_iff _ w).1 h3 hop
    | f4 => exact absurd hg (by decide)
  exact ⟨decodeWord_scroll keyScuOk_default hfirst (.head _),
    decodeWord_scroll keyScuOk_default hfirst (.tail _ (.head _))⟩

/-- Settles O6, by running the decoder on the nine words. -/
theorem printedPatternsDecode : Obligations.PrintedPatternsDecode := by
  unfold Obligations.PrintedPatternsDecode
  decide

end Sys2Proof
end

section
/-! SUPPORT. Assembler text (30_encoding.md R118 to R122): an instruction's text is the row of R119's table, and the text of
every line is read back as the line (`readText_itemText`). -/

namespace Sys2Proof.Machine

/-! ## The spelling of R119 -/

theorem toList_digitText (d : Nibble) : (digitText d).toList = [hexChar d] := by
  have h : digitText d = String.ofList [hexChar d] := by revert d; decide
  rw [h, String.toList_ofList]

theorem toList_decimalText (n : Nibble) : (decimalText n).toList = decChars n := by
  have h : decimalText n = String.ofList (decChars n) := by revert n; decide
  rw [h, String.toList_ofList]

theorem toList_byteText (kk : Byte) : (byteText kk).toList = '0' :: 'x' :: hexChars8 kk := by
  simp [byteText, hexChars8, toList_digitText]

theorem toList_addrText (nnn : Addr12) : (addrText nnn).toList = '0' :: 'x' :: hexChars12 nnn := by
  simp [addrText, hexChars12, toList_digitText]

/-- An instruction's parts, spelled out, are its row of R119's table. -/
theorem instrText_eq_tableText (i : Instr) : instrText i = tableText i := by
  apply String.toList_inj.1
  have hzero : hexChar 0x0#4 = '0' := rfl
  cases i <;>
    simp [instrText, itemText, itemParts, instrParts, tableText, operandsChars, Mnemonic.chars, Operand.chars,
      OperandName.chars, toList_digitText, toList_decimalText, toList_byteText, toList_addrText, hzero]

theorem itemText_data (w : Word) : itemText (.data w) = markerText w := by
  apply String.toList_inj.1
  simp [itemText, itemParts, markerText, operandsChars, Mnemonic.chars, Operand.chars, hexChars16, toList_digitText]

/-! ## Reading back -/

theorem readOperands_operandsChars {fuel : Nat} {o : Operand} {os : List Operand} (h : os.length < fuel) :
    readOperands fuel (o.chars ++ os.flatMap fun p => ',' :: ' ' :: p.chars) = some (o :: os) := by
  induction os generalizing fuel o with
  | nil =>
    obtain ⟨fuel, rfl⟩ := Nat.exists_eq_add_of_lt h
    simp [readOperands, cutAt_none o.chars_noComma]
  | cons p os ih =>
    cases fuel with
    | zero => exact absurd h (Nat.not_lt_zero _)
    | succ fuel =>
      have hrest := ih (o := p) (Nat.lt_of_succ_lt_succ h)
      simp [readOperands, cutAt_some _ o.chars_noComma, hrest]

theorem readParts_chars {m : Mnemonic} {os : List Operand} (h : os.length ≤ 3) :
    readParts (m.chars ++ operandsChars os) = some (m, os) := by
  cases os with
  | nil => simp [readParts, operandsChars, cutAt_none m.chars_noSpace]
  | cons o os =>
    simp [readParts, operandsChars, cutAt_some _ m.chars_noSpace, readOperands_operandsChars h]

theorem itemParts_length (a : AsmItem) : (itemParts a).2.length ≤ 3 := by
  cases a with
  | data w => simp [itemParts]
  | instr i => cases i <;> simp [itemParts, instrParts]

/-- The assembler reads a line's text back as the line (R120, R121). -/
@[simp] theorem readText_itemText (a : AsmItem) : readText (itemText a) = some a := by
  simp [readText, itemText, readParts_chars (itemParts_length a)]

theorem itemText_injective {a b : AsmItem} (h : itemText a = itemText b) : a = b :=
  Option.some.inj (by rw [← readText_itemText a, h, readText_itemText])

theorem hexWord_injective {v w : Word} (h : hexWord v = hexWord w) : v = w := by
  have hread : ∀ u : Word, ((readHexes (hexWord u).toList).bind operandOfHex) = some (.word u) := by
    intro u
    simp [hexWord, operandOfHex, ← word_eq_nibbles]
  have hv := hread v
  rw [h, hread w] at hv
  simpa using hv.symm

@[simp] theorem assemble_itemText (k : Word) (a : AsmItem) : assemble k (itemText a) = some (itemBytes k a) := by
  simp [assemble]

theorem wordItem_of_ok {k w : Word} {i : Instr} (h : decodeWord k w = .ok i) : wordItem k w = .instr i := by
  simp [wordItem, h]

theorem wordItem_of_unclassified {k w : Word} (h : classify k w = none) : wordItem k w = .data w := by
  obtain ⟨hnone, -⟩ := decoderAgreesWithClassifier k w
  simp [wordItem, hnone.1 h]

/-- Settles O7: reading undoes writing for every line, so the bytes are those of the line the word was written as. -/
theorem disassemblyReassembles : Obligations.DisassemblyReassembles := by
  refine ⟨fun i => ⟨instrText_eq_tableText i, readText_itemText _⟩,
    fun i j h => AsmItem.instr.inj (itemText_injective h), fun w => ⟨itemText_data w, ?_⟩, fun v w h => ?_,
    fun _ _ => hexWord_injective, fun i w h => ?_,
    fun k w i hk hi => ⟨?_, ?_⟩, fun k w h => ⟨?_, ?_⟩, fun k w => ?_⟩
  · rw [← itemText_data, readText_itemText]
  · rw [← itemText_data, ← itemText_data] at h
    exact AsmItem.data.inj (itemText_injective h)
  · rw [← itemText_data] at h
    exact AsmItem.noConfusion (itemText_injective h)
  · rw [wordText, wordItem_of_ok hi, instrText]
  · rw [reassemble, wordText, wordItem_of_ok hi, assemble_itemText, itemBytes, encodeBytes,
      encodeDecodeCanonical k w i hk hi]
  · rw [wordText, wordItem_of_unclassified h, itemText_data]
  · rw [reassemble, wordText, wordItem_of_unclassified h, assemble_itemText, itemBytes]
  · rw [← itemText_data, assemble_itemText, itemBytes]

end Sys2Proof.Machine
end

section
/-! SUPPORT. Control flow (40_control_flow.md): what JP, CALL, RET and the skips do to pc and the call stack, and that every
stacked return address is one at which a word was fetched (R132). -/

namespace Sys2Proof.Machine

/-! ## Targets -/

/-- `zext_16` puts four zero bits before the address (R93). -/
theorem addrOf_eq_append (nnn : Addr12) : addrOf nnn = 0x0#4 ++ nnn :=
  BitVec.setWidth_eq_append (by decide)

/-- The offset jump stays below 4096 + 256, so it never wraps (R137). -/
theorem toNat_addrOf_add_zext16 (nnn : Addr12) (b : Byte) : (addrOf nnn + zext16 b).toNat = nnn.toNat + b.toNat := by
  have hnnn : nnn.toNat < 4096 := nnn.isLt
  have hb : b.toNat < 256 := b.isLt
  simp only [addrOf, zext16, BitVec.toNat_add, BitVec.toNat_setWidth]
  omega

/-! ## Skips -/

/-- A skip on equal bytes writes pc alone: past the next word when they are equal, else to it (R24). -/
theorem State.skipIf_beq (s : State) (a b : Byte) :
    s.skipIf (a == b) = { s with pc := if a = b then s.pc + 4#16 else s.pc + 2#16 } := by
  rw [State.skipIf_eq]
  by_cases h : a = b <;> simp [h, State.jump]

/-- A skip on different bytes goes the other way round (R24). -/
theorem State.skipIf_bne (s : State) (a b : Byte) :
    s.skipIf (a != b) = { s with pc := if a = b then s.pc + 2#16 else s.pc + 4#16 } := by
  rw [State.skipIf_eq]
  by_cases h : a = b <;> simp [h, State.jump]

/-! ## The call stack -/

theorem State.stackFull_iff (s : State) : s.stackFull = true ↔ s.cfg.stackDepth = some s.stk.length := by
  cases h : s.cfg.stackDepth with
  | none => simp [State.stackFull, h]
  | some d => simp [State.stackFull, h, eq_comm]

theorem exec_call_of_room {s : State} (nnn : Addr12) (h : s.cfg.stackDepth ≠ some s.stk.length) :
    exec (.call nnn) s = .next { s with stk := s.pc :: s.stk, pc := 0x0#4 ++ nnn } := by
  rw [← addrOf_eq_append]
  exact if_neg (mt s.stackFull_iff.1 h)

theorem exec_call_of_full {s : State} (nnn : Addr12) (h : s.cfg.stackDepth = some s.stk.length) :
    exec (.call nnn) s = .next (Faulted s .stackOverflow s.stk.length) :=
  if_pos (s.stackFull_iff.2 h)

theorem exec_ret_of_cons {s : State} {a : Word} {rest : List Word} (h : s.stk = a :: rest) :
    exec .ret s = .next { s with stk := rest, pc := a + 2#16 } := by
  change execRet s = _
  rw [execRet, h]
  rfl

theorem exec_ret_of_nil {s : State} (h : s.stk = []) : exec .ret s = .next (Faulted s .stackUnderflow 0) := by
  change execRet s = _
  rw [execRet, h]
  rfl

theorem SameStore.returnsOk {s t : State} (h : SameStore s t) (hs : s.ReturnsOk) : t.ReturnsOk := by
  rw [State.ReturnsOk, h.stk]
  exact hs

/-- Only CALL pushes, and what it pushes is the pc its own word was fetched at (R131, R132). -/
theorem ExecEffect.returnsOk {s t : State} {i : Instr} (hpc : s.pc.toNat + 1 < memSize) (h : ExecEffect s i t)
    (hs : s.ReturnsOk) : t.ReturnsOk := by
  cases h with
  | call nnn => exact List.forall_mem_cons.2 ⟨hpc, hs⟩
  | ret a rest hstk =>
    rw [State.ReturnsOk, hstk] at hs
    exact (List.forall_mem_cons.1 hs).2
  | _ => exact hs

/-! ## The obligations -/

/-- Settles O18: a step that runs an instruction has passed the fetch check, so the pc a CALL pushes lies in memory. -/
theorem stepKeepsReturnsFetchable : Obligations.StepKeepsReturnsFetchable :=
  fun _ _ hs h => step_keeps (P := State.ReturnsOk) SameStore.returnsOk State.resetWith_returnsOk
    (fun hpc he => he.returnsOk hpc) hs h

/-- Settles O31: the target is the operand, zero-extended. -/
theorem jpWritesPc : Obligations.JpWritesPc :=
  fun _ nnn s => ⟨rfl, congrArg (fun w => Host.Outcome.next (s.jump w)) (addrOf_eq_append nnn)⟩

/-- Settles O32, by whether the stack is full. -/
theorem callPushesOwnAddress : Obligations.CallPushesOwnAddress :=
  fun _ nnn _ => ⟨rfl, exec_call_of_room nnn, exec_call_of_full nnn⟩

/-- Settles O33, by whether the stack is empty. -/
theorem retResumesAfterCall : Obligations.RetResumesAfterCall :=
  fun _ _ => ⟨rfl, fun _ _ => exec_ret_of_cons, exec_ret_of_nil⟩

/-- Settles O34: RET pops what CALL pushed. -/
theorem callThenRet : Obligations.CallThenRet := by
  intro nnn s t hroom hcall
  rw [exec_call_of_room nnn hroom] at hcall
  cases hcall
  exact exec_ret_of_cons rfl

/-- Settles O35: each of the two is a skip on the comparison or on its negation. -/
theorem skipsOnImmediate : Obligations.SkipsOnImmediate :=
  fun _ x kk s => ⟨rfl, rfl, congrArg _ (s.skipIf_beq (s.reg x) kk), congrArg _ (s.skipIf_bne (s.reg x) kk)⟩

/-- Settles O36, as O35 with V[y] for the immediate. -/
theorem skipsOnRegisters : Obligations.SkipsOnRegisters :=
  fun _ x y s =>
    ⟨rfl, rfl, congrArg _ (s.skipIf_beq (s.reg x) (s.reg y)), congrArg _ (s.skipIf_bne (s.reg x) (s.reg y))⟩

/-- Settles O37: the target is the sum, which does not wrap. -/
theorem jpV0AddsOffset : Obligations.JpV0AddsOffset :=
  fun nnn s => ⟨_, rfl, toNat_addrOf_add_zext16 nnn (s.reg 0x0#4)⟩

end Sys2Proof.Machine
end

section
/-! SUPPORT. Register arithmetic and logic (41_arith_logic.md): the byte each flag is (R154 to R158), and what the three orders
of writing leave in the registers (R160): a result alone, a result and then a flag, a flag and then a shifted source. -/

namespace Sys2Proof.Machine

/-! ## Flags and results as numbers -/

theorem toNat_flagByte (b : Bool) : (flagByte b).toNat = b.toNat := by
  cases b <;> rfl

theorem toNat_flagByte_decide (p : Prop) [Decidable p] : (flagByte (decide p)).toNat = if p then 1 else 0 :=
  (toNat_flagByte _).trans (Bool.cond_decide p 1 0)

theorem toNat_bitOutRight (a : Byte) : (bitOutRight a).toNat = a.toNat % 2 := by
  rw [bitOutRight, toNat_flagByte]
  exact (Nat.toNat_testBit a.toNat 0).trans (by rw [Nat.pow_zero, Nat.div_one])

theorem toNat_bitOutLeft (a : Byte) : (bitOutLeft a).toNat = a.toNat / 128 := by
  have ha : a.toNat < 256 := a.isLt
  have hbit : (a.getLsbD 7).toNat = a.toNat / 2 ^ 7 % 2 := Nat.toNat_testBit a.toNat 7
  rw [bitOutLeft, toNat_flagByte, hbit]
  omega

theorem toNat_shiftRight_one (a : Byte) : (a >>> 1).toNat = a.toNat / 2 := by
  rw [BitVec.toNat_ushiftRight, Nat.shiftRight_one]

theorem toNat_shiftLeft_one (a : Byte) : (a <<< 1).toNat = 2 * a.toNat % 256 := by
  rw [BitVec.toNat_shiftLeft, Nat.shiftLeft_eq, Nat.pow_one, Nat.mul_comm]

/-- A flag shifted right is 0 (R156 with VF for source, D14). -/
theorem toNat_bitOutRight_shiftRight (a : Byte) : (bitOutRight a >>> 1).toNat = 0 := by
  rw [toNat_shiftRight_one, toNat_bitOutRight]
  omega

/-- A flag shifted left does not wrap (R158 with VF for source, D14). -/
theorem toNat_bitOutLeft_shiftLeft (a : Byte) : (bitOutLeft a <<< 1).toNat = 2 * (a.toNat / 128) := by
  have ha : a.toNat < 256 := a.isLt
  rw [toNat_shiftLeft_one, toNat_bitOutLeft]
  omega

/-- The difference wraps as the remainder of the integer difference does (R155). -/
theorem toNat_sub_eq_emod (a b : Byte) : ((a - b).toNat : Int) = (a.toNat - b.toNat : Int) % 256 := by
  have hb : b.toNat < 256 := b.isLt
  rw [BitVec.toNat_sub]
  omega

/-! ## The registers after an instruction -/

section Registers

variable (s : State) (x : Nibble)

/-- Writing registers and stepping to the next word keeps everything else. -/
theorem sameButRegs_advance (v : Vector Byte 16) : SameButRegs s { s with v := v }.advance :=
  ⟨rfl, fun _ => rfl⟩

/-- A result and then a flag (R160): the result stands unless x = F, the flag always. -/
theorem setRegThenFlag_advance_regs (r f : Byte) :
    let t := (s.setRegThenFlag x r f).advance
    (x ≠ flagReg → t.reg x = r) ∧ t.reg flagReg = f ∧ ∀ j, j ≠ x → j ≠ flagReg → t.reg j = s.reg j := by
  refine ⟨fun h => ?_, ?_, fun j hx hF => ?_⟩
  · simp [State.setRegThenFlag_reg, h]
  · simp [State.setRegThenFlag_reg]
  · simp [State.setRegThenFlag_reg, hx, hF]

/-- A flag and then a shifted source (R160): the source is read after the flag, and the flag stands unless x = F. -/
theorem setFlagThenReg_advance_regs (src : Nibble) (f : Byte) (g : Byte → Byte) :
    let t := (s.setFlagThenReg x src f g).advance
    (src ≠ flagReg → t.reg x = g (s.reg src)) ∧ (src = flagReg → t.reg x = g f) ∧ (x ≠ flagReg → t.reg flagReg = f) ∧
      ∀ j, j ≠ x → j ≠ flagReg → t.reg j = s.reg j := by
  refine ⟨fun h => ?_, fun h => ?_, fun h => ?_, fun j hx hF => ?_⟩
  · simp [State.setFlagThenReg_reg, h]
  · simp [State.setFlagThenReg_reg, h]
  · simp [State.setFlagThenReg_reg, h.symm]
  · simp [State.setFlagThenReg_reg, hx, hF]

/-- What SUB and SUBN have in common: `a - b` and the flag that `a` is the greater (R155, R157). -/
theorem difference_effect (a b : Byte) :
    let t := (s.setRegThenFlag x (a - b) (greaterOf a b)).advance
    SameButRegs s t ∧ (x ≠ 0xF#4 → ((t.reg x).toNat : Int) = (a.toNat - b.toNat : Int) % 256) ∧
      (t.reg 0xF#4).toNat = (if a.toNat > b.toNat then 1 else 0) ∧ ∀ r, r ≠ x → r ≠ 0xF#4 → t.reg r = s.reg r := by
  obtain ⟨hresult, hflag, hrest⟩ := setRegThenFlag_advance_regs s x (a - b) (greaterOf a b)
  refine ⟨sameButRegs_advance s _, fun hx => ?_, ?_, hrest⟩
  · rw [hresult hx, toNat_sub_eq_emod]
  · exact (congrArg BitVec.toNat hflag).trans (toNat_flagByte_decide _)

end Registers

/-! ## The obligations -/

/-- Settles O38: one register is written, and V[y] is what is written. -/
theorem ldCopiesRegister : Obligations.LdCopiesRegister :=
  fun x y s => ⟨_, rfl, sameButRegs_advance s _, s.setReg_reg_same x (s.reg y), fun _ => s.setReg_reg_ne _⟩

/-- Settles O39: each of the three writes V[x] alone, and a word operation acts on each bit. -/
theorem logicIsBitwise : Obligations.LogicIsBitwise := by
  intro x y s
  refine ⟨⟨_, rfl, sameButRegs_advance s _, fun _ => s.setReg_reg_ne _, fun j => ?_⟩,
    ⟨_, rfl, sameButRegs_advance s _, fun _ => s.setReg_reg_ne _, fun j => ?_⟩,
    ⟨_, rfl, sameButRegs_advance s _, fun _ => s.setReg_reg_ne _, fun j => ?_⟩⟩
  · rw [State.advance_reg, State.setReg_reg_same, BitVec.getLsbD_or]
  · rw [State.advance_reg, State.setReg_reg_same, BitVec.getLsbD_and]
  · rw [State.advance_reg, State.setReg_reg_same, BitVec.getLsbD_xor]

/-- Settles O40: the sum is written first and the carry last (R160). -/
theorem addSetsCarry : Obligations.AddSetsCarry := by
  intro _ x y s
  obtain ⟨hresult, hflag, hrest⟩ := setRegThenFlag_advance_regs s x (s.reg x + s.reg y) (carryOf (s.reg x) (s.reg y))
  refine ⟨rfl, _, rfl, sameButRegs_advance s _, fun hx => ?_, ?_, hrest⟩
  · rw [hresult hx, BitVec.toNat_add]
  · exact (congrArg BitVec.toNat hflag).trans (toNat_flagByte_decide _)

/-- Settles O41: SUB and SUBN are the same difference with the operands exchanged. -/
theorem subSetsStrictlyGreater : Obligations.SubSetsStrictlyGreater :=
  fun _ x y s => ⟨rfl, rfl, ⟨_, rfl, difference_effect s x (s.reg x) (s.reg y)⟩,
    ⟨_, rfl, difference_effect s x (s.reg y) (s.reg x)⟩⟩

/-- Settles O42: bit 0 and then the source shifted right, which is that bit shifted out when the source is VF. -/
theorem shrShiftsSource : Obligations.ShrShiftsSource := by
  rintro x y src s (rfl : src = shiftSource s x y)
  obtain ⟨hresult, hresultVF, hflag, hrest⟩ := setFlagThenReg_advance_regs s x (shiftSource s x y)
    (bitOutRight (s.reg (shiftSource s x y))) (fun b => b >>> 1)
  refine ⟨_, rfl, sameButRegs_advance s _, fun h => ?_, fun h => ?_, fun h => ?_, hrest⟩
  · rw [hresult h, toNat_shiftRight_one]
  · rw [hresultVF h, toNat_bitOutRight_shiftRight]
  · exact (congrArg BitVec.toNat (hflag h)).trans (toNat_bitOutRight _)

/-- Settles O43: bit 7 and then the source shifted left, which is that bit doubled when the source is VF. -/
theorem shlShiftsSource : Obligations.ShlShiftsSource := by
  rintro x y src s (rfl : src = shiftSource s x y)
  obtain ⟨hresult, hresultVF, hflag, hrest⟩ := setFlagThenReg_advance_regs s x (shiftSource s x y)
    (bitOutLeft (s.reg (shiftSource s x y))) (fun b => b <<< 1)
  refine ⟨_, rfl, sameButRegs_advance s _, fun h => ?_, fun h => ?_, fun h => ?_, hrest⟩
  · rw [hresult h, toNat_shiftLeft_one]
  · rw [hresultVF h, toNat_bitOutLeft_shiftLeft]
  · exact (congrArg BitVec.toNat (hflag h)).trans (toNat_bitOutLeft _)

end Sys2Proof.Machine
end

section
/-! SUPPORT. Immediate loads and adds, and the random byte (42_immediate_random.md): of the registers each writes V[x] alone,
so VF only where x = F. -/

namespace Sys2Proof.Machine

/-! ## The obligations -/

/-- Settles O44: one register is written, with kk or with the sum, which wraps as the word sum does. -/
theorem immediateLoadAndAdd : Obligations.ImmediateLoadAndAdd := by
  intro _ x kk s
  have hsum : ((s.setReg x (s.reg x + kk)).advance.reg x).toNat = ((s.reg x).toNat + kk.toNat) % 256 := by
    rw [State.advance_reg, State.setReg_reg_same, BitVec.toNat_add]
  exact ⟨rfl, rfl,
    ⟨_, rfl, sameButRegs_advance s _, s.setReg_reg_same x kk, fun _ => s.setReg_reg_ne _⟩,
    ⟨_, rfl, sameButRegs_advance s _, hsum, fun _ => s.setReg_reg_ne _⟩⟩

/-- Settles O45: the draw is counted, and one register is written, with this draw's byte masked by kk, whose 0 bits stay 0. -/
theorem rndMasksDraw : Obligations.RndMasksDraw := by
  intro _ x kk s
  have hreg : (s.drawn.setReg x (s.rndByte &&& kk)).advance.reg x = Config.rnd8 s.draws &&& kk :=
    s.drawn.setReg_reg_same x _
  refine ⟨rfl, _, rfl, rfl, hreg, fun j hj => ?_, fun _ => s.drawn.setReg_reg_ne _, fun _ => rfl⟩
  rw [hreg, BitVec.getLsbD_and, hj, Bool.and_false]

end Sys2Proof.Machine
end

section
/-! SUPPORT. The address register and memory (43_index_memory.md): what a block instruction finds or leaves at I (R185 to R187),
where the next block begins (Q_LDST), and the one fault of all three (R184, R265). -/

namespace Sys2Proof.Machine

/-! ## The address register as a number -/

/-- I plus a register wraps at 65536, as the word sum does (R181, D18). -/
theorem toNat_add_zext16 (w : Word) (b : Byte) : (w + zext16 b).toNat = (w.toNat + b.toNat) % 65536 := by
  rw [BitVec.toNat_add, zext16, BitVec.toNat_setWidth_of_le (by decide)]

/-- A low-res glyph of any register value lies below 5 * 256, so its address never wraps (R182). -/
theorem toNat_loGlyph (b : Byte) : (loGlyph b).toNat = 5 * b.toNat := by
  have hb : b.toNat < 256 := b.isLt
  simp only [loGlyph, fontLoBase, fontLoStride, BitVec.toNat_ofNat]
  omega

/-- Where I stands after a block instruction (R186, R187). -/
theorem toNat_autoIncrement_ireg (s : State) (x : Nibble) :
    (autoIncrement x s).ireg.toNat =
      if s.cfg.qLdst then (s.ireg.toNat + x.toNat + 1) % 65536 else s.ireg.toNat := by
  rw [autoIncrement_eq]
  cases s.cfg.qLdst with
  | false => rfl
  | true => simp [blockLength, Nat.add_assoc]

@[simp] theorem autoIncrement_byteAt (s : State) (x : Nibble) (a : Nat) : (autoIncrement x s).byteAt a = s.byteAt a := by
  rw [autoIncrement_eq]
  rfl

@[simp] theorem autoIncrement_reg (s : State) (x j : Nibble) : (autoIncrement x s).reg j = s.reg j := by
  rw [autoIncrement_eq]
  rfl

/-! ## The bytes at I -/

section Bytes

variable {s : State} {a : Nat} {bs : List Byte} (h : s.MemOk) (hr : a + bs.length ≤ memSize)
include h hr

theorem State.setBytes_byteAt_inside {j : Nat} (hj : j < bs.length) : (s.setBytes a bs).byteAt (a + j) = bs[j] := by
  rw [State.setBytes_byteAt s _ _ _ h hr, dif_pos (by omega)]
  simp

theorem State.setBytes_byteAt_outside {k : Nat} (hk : k < a ∨ a + bs.length ≤ k) :
    (s.setBytes a bs).byteAt k = s.byteAt k := by
  rw [State.setBytes_byteAt s _ _ _ h hr, dif_neg (by omega)]

end Bytes

/-- Each decimal digit of a byte fits a byte (R185). -/
theorem bcdDigits_map_toNat (b : Byte) :
    (bcdDigits b).map BitVec.toNat = [b.toNat / 100, b.toNat / 10 % 10, b.toNat % 10] := by
  have hb : b.toNat < 256 := b.isLt
  simp only [bcdDigits, List.map_cons, List.map_nil, BitVec.toNat_ofNat, List.cons.injEq, and_true]
  omega

/-- The digits as they are read back from where they were stored (R185). -/
theorem toNat_byteAt_setBytes_bcdDigits {s : State} {a : Nat} (b : Byte) (h : s.MemOk) (hr : a + 3 ≤ memSize) {j : Nat}
    (hj : j < 3) :
    ((s.setBytes a (bcdDigits b)).byteAt (a + j)).toNat = [b.toNat / 100, b.toNat / 10 % 10, b.toNat % 10][j] := by
  simp only [← bcdDigits_map_toNat, List.getElem_map]
  exact congrArg _ (State.setBytes_byteAt_inside h hr hj)

@[simp] theorem State.firstRegs_length (s : State) (k : Nat) : (s.firstRegs k).length = k := by
  simp [State.firstRegs]

/-- A register among the first `k` stands at its own number. -/
theorem State.firstRegs_getElem (s : State) {k : Nat} {r : Nibble} (hr : r.toNat < (s.firstRegs k).length) :
    (s.firstRegs k)[r.toNat] = s.reg r := by
  simp [State.firstRegs]

/-! ## The range check -/

section Range

variable {s : State} {count : Nat} (ok : State)

/-- With every byte in memory the instruction has its own effect (R184). -/
theorem next_withBytesAtI_inRange (h : s.ireg.toNat + count ≤ 4096) :
    (.next (withBytesAtI count s ok) : Result) = .next ok :=
  congrArg _ (withBytesAtI_inRange ok (.inr h))

/-- With a byte outside memory the fault is the whole effect (R184, R265, D10). -/
theorem next_withBytesAtI_outOfRange (hc : 0 < count) (h : 4096 < s.ireg.toNat + count) :
    (.next (withBytesAtI count s ok) : Result) = .next (Faulted s .memRange (max s.ireg.toNat 4096)) :=
  congrArg _ (withBytesAtI_outOfRange ok hc h)

end Range

/-! ## The obligations -/

/-- Settles O46: each writes I with the operand, zero-extended, or with the word sum. -/
theorem loadAndAddIndex : Obligations.LoadAndAddIndex :=
  fun _ nnn x s => ⟨rfl, congrArg (fun w => Host.Outcome.next (s.setI w).advance) (addrOf_eq_append nnn), _, rfl,
    toNat_add_zext16 s.ireg (s.reg x)⟩

/-- Settles O47: each writes I with the glyph's address, which wraps only for LD HF. -/
theorem glyphAddresses : Obligations.GlyphAddresses :=
  fun x s => ⟨⟨_, rfl, toNat_loGlyph (s.reg x)⟩, _, rfl, BitVec.toNat_ofNat _ _⟩

/-- Settles O48, by the range check: the three digits are read back where they were stored, and nothing else is stored. -/
theorem bcdStoresDigits : Obligations.BcdStoresDigits := by
  refine fun _ x s => ⟨(append_assoc_imm 0xF#4 x 0x3#4 0x3#4).symm, fun hm hr => ?_,
    fun hr => next_withBytesAtI_outOfRange _ (by decide) (by omega)⟩
  have digit {j : Nat} (hj : j < 3) := toNat_byteAt_setBytes_bcdDigits (s.reg x) hm hr hj
  refine ⟨_, next_withBytesAtI_inRange _ hr, ?_, digit (j := 0) (by decide), digit (j := 1) (by decide),
    digit (j := 2) (by decide), fun a ha => State.setBytes_byteAt_outside hm hr ha⟩
  rw [State.setBytes_eq]
  rfl

/-- Settles O49, by the range check: the registers are read back in order where they were stored, and nothing else is
stored. -/
theorem blockStore : Obligations.BlockStore := by
  refine fun _ x s => ⟨(append_assoc_imm 0xF#4 x 0x5#4 0x5#4).symm, fun hm hr => ?_,
    fun hr => next_withBytesAtI_outOfRange _ (Nat.succ_pos _) (Nat.lt_succ_of_le hr)⟩
  have hlen : (s.firstRegs (blockLength x)).length = x.toNat + 1 := s.firstRegs_length _
  have hfit : s.ireg.toNat + (s.firstRegs (blockLength x)).length ≤ memSize := by rwa [hlen]
  refine ⟨_, next_withBytesAtI_inRange _ hr, ?_, fun r hrx => ?_, fun a ha => ?_, ?_⟩
  · rw [autoIncrement_eq, State.setBytes_eq]
    rfl
  · rw [State.advance_byteAt, autoIncrement_byteAt, State.setBytes_byteAt_inside hm hfit (by omega),
      State.firstRegs_getElem]
  · rw [State.advance_byteAt, autoIncrement_byteAt, State.setBytes_byteAt_outside hm hfit (by omega)]
  · rw [State.advance_ireg, toNat_autoIncrement_ireg, State.setBytes_cfg, State.setBytes_ireg]

/-- Settles O50, by the range check: the registers up to Vx take the bytes from I up, and the others stay. -/
theorem blockLoad : Obligations.BlockLoad := by
  refine fun _ x s => ⟨(append_assoc_imm 0xF#4 x 0x6#4 0x5#4).symm, fun hr => ?_,
    fun hr => next_withBytesAtI_outOfRange _ (Nat.succ_pos _) (Nat.lt_succ_of_le hr)⟩
  have hreg := State.loadRegs_reg s s.ireg.toNat (blockLength x) x.isLt
  refine ⟨_, next_withBytesAtI_inRange _ hr, ?_, fun r hrx => ?_, fun r hxr => ?_, fun a => ?_, ?_⟩
  · rw [autoIncrement_eq, State.loadRegs_eq]
    rfl
  · rw [State.advance_reg, autoIncrement_reg]
    exact (hreg r).trans (if_pos (Nat.lt_succ_of_le hrx))
  · rw [State.advance_reg, autoIncrement_reg]
    exact (hreg r).trans (if_neg (Nat.not_lt.2 hxr))
  · rw [State.advance_byteAt, autoIncrement_byteAt, State.loadRegs_eq]
    rfl
  · rw [State.advance_ireg, toNat_autoIncrement_ireg, State.loadRegs_cfg, State.loadRegs_ireg]

end Sys2Proof.Machine
end

section
/-! SUPPORT. Keypad and timers (44_keypad_timer.md): where a skip on a key goes (R200, R201), its fault on a value that is no
key's number (D22), and the tone that follows ST (R37). -/

namespace Sys2Proof.Machine

/-! ## Skips on a key -/

section Key

variable {s : State} {k : Byte}

/-- On a key's number the skip is taken when the key's state is the wanted one. -/
theorem skipOnKey_of_key (want : Bool) (h : k.toNat ≤ 15) :
    skipOnKey k want s = s.skipIf (s.keyDown k.toNat == want) :=
  if_neg (Nat.not_lt.2 h)

/-- A skip on a pressed key writes pc alone: past the next word when the key is down, else to it (R200). -/
theorem skipOnKey_true (h : k.toNat ≤ 15) :
    skipOnKey k true s = { s with pc := if s.key.getLsbD k.toNat then s.pc + 4#16 else s.pc + 2#16 } := by
  rw [skipOnKey_of_key _ h, State.keyDown]
  cases s.key.getLsbD k.toNat <;> rfl

/-- A skip on a released key goes the other way round (R201). -/
theorem skipOnKey_false (h : k.toNat ≤ 15) :
    skipOnKey k false s = { s with pc := if s.key.getLsbD k.toNat then s.pc + 2#16 else s.pc + 4#16 } := by
  rw [skipOnKey_of_key _ h, State.keyDown]
  cases s.key.getLsbD k.toNat <;> rfl

/-- On a value that is no key's number the fault is the whole effect, whichever state is wanted (R264, D22). -/
theorem skipOnKey_of_noKey (want : Bool) (h : 15 < k.toNat) :
    skipOnKey k want s = Faulted s .keyIndex k.toNat :=
  if_pos h

end Key

/-! ## The tone -/

/-- The tone sounds while ST is not 0 (R37). -/
theorem State.tone_iff (s : State) : s.tone = true ↔ s.st ≠ 0x00#8 := by
  rw [State.tone, decide_eq_true_iff, Nat.pos_iff_ne_zero, ne_eq, ne_eq, BitVec.toNat_eq, BitVec.toNat_zero]

/-! ## The obligations -/

/-- Settles O51, by whether V[x] is a key's number. -/
theorem keySkips : Obligations.KeySkips :=
  fun _ _ => ⟨fun hkey => ⟨congrArg _ (skipOnKey_true hkey), congrArg _ (skipOnKey_false hkey)⟩,
    fun hno => ⟨congrArg _ (skipOnKey_of_noKey true hno), congrArg _ (skipOnKey_of_noKey false hno)⟩⟩

/-- Settles O52: the wait begins, and pc stays. -/
theorem waitForKeyBegins : Obligations.WaitForKeyBegins :=
  fun _ x _ => ⟨(append_assoc_imm 0xF#4 x 0x0#4 0xA#4).symm, rfl⟩

/-- Settles O53: one register is written with DT, or one timer with V[x]. -/
theorem timerAccess : Obligations.TimerAccess :=
  fun x s => ⟨⟨_, rfl, sameButRegs_advance s _, s.setReg_reg_same x s.dt, fun _ => s.setReg_reg_ne _⟩, rfl,
    _, rfl, rfl, State.tone_iff _⟩

end Sys2Proof.Machine
end

section
/-! SUPPORT. Display and system (45_display_system.md): no two bits of a sprite land on one pixel (R227), so a draw
toggles each pixel its sprite lights once, and its collision bit speaks of the buffer it began with (R226). -/

namespace Sys2Proof.Machine

/-! ## The size of a buffer -/

theorem blankFb_length (m : Mode) : (blankFb m).length = m.height :=
  List.length_replicate

theorem blankFb_row_length (m : Mode) : ∀ row ∈ blankFb m, row.length = m.width :=
  fun row hrow => (((fbWf_iff m _).1 (fbWf_blank m)).2 row hrow).1

theorem fbScrollDown_length (m : Mode) (k : Nat) (old : List (List Byte)) :
    (fbScrollDown m k old).length = m.height := by
  simp [fbScrollDown]

theorem fbScrollUp_length (m : Mode) (k : Nat) (old : List (List Byte)) :
    (fbScrollUp m k old).length = m.height := by
  simp [fbScrollUp]

/-! ## Where a sprite lands -/

section Place

variable {wrap : Bool} {m : Mode}

/-- A visible place is its coordinates reduced modulo the screen size, clipped or not (R227). -/
theorem place_eq_mod {u v : Nat} {p : Nat × Nat} (h : place wrap m u v = some p) :
    p.1 = u % m.width ∧ p.2 = v % m.height := by
  unfold place at h
  split at h
  · cases h
    exact ⟨rfl, rfl⟩
  · split at h
    next hvis =>
      cases h
      exact ⟨(Nat.mod_eq_of_lt hvis.1).symm, (Nat.mod_eq_of_lt hvis.2).symm⟩
    next => cases h

/-- Offsets below the width that land in one column are equal. -/
theorem place_column_inj {u d d' v v' : Nat} {p : Nat × Nat} (h : place wrap m (u + d) v = some p)
    (h' : place wrap m (u + d') v' = some p) (hd : d < m.width) (hd' : d' < m.width) : d = d' := by
  have hmod : (u + d) % m.width = (u + d') % m.width := (place_eq_mod h).1.symm.trans (place_eq_mod h').1
  exact (Nat.ModEq.add_left_cancel' u hmod).eq_of_lt_of_lt hd hd'

/-- Offsets below the height that land in one row are equal. -/
theorem place_row_inj {u u' v d d' : Nat} {p : Nat × Nat} (h : place wrap m u (v + d) = some p)
    (h' : place wrap m u' (v + d') = some p) (hd : d < m.height) (hd' : d' < m.height) : d = d' := by
  have hmod : (v + d) % m.height = (v + d') % m.height := (place_eq_mod h).2.symm.trans (place_eq_mod h').2
  exact (Nat.ModEq.add_left_cancel' v hmod).eq_of_lt_of_lt hd hd'

/-- A place lands on a pixel of the screen when it is that pixel, reduced first if the sprite wraps (R227). -/
theorem place_eq_some_iff {u v px py : Nat} (hx : px < m.width) (hy : py < m.height) :
    place wrap m u v = some (px, py) ↔
      if wrap then px = u % m.width ∧ py = v % m.height else px = u ∧ py = v := by
  cases wrap with
  | true => simp [place, eq_comm]
  | false =>
    simp only [place, Bool.false_eq_true, if_false, Option.ite_none_right_eq_some, Option.some.injEq, Prod.mk.injEq]
    constructor
    · rintro ⟨-, rfl, rfl⟩
      exact ⟨rfl, rfl⟩
    · rintro ⟨rfl, rfl⟩
      exact ⟨⟨hx, hy⟩, rfl, rfl⟩

/-- In both modes the screen is wide enough for a row of a sprite and high enough for the most rows it can have. -/
theorem Mode.sprite_fits (m : Mode) : 8 ≤ m.width ∧ 15 ≤ m.height := by
  cases m <;> decide

/-- The bits of a sprite row land in different columns. -/
theorem rowPlaces_nodup (cx v : Nat) (bits : Byte) : (rowPlaces wrap m cx v bits).Nodup := by
  have hw := m.sprite_fits.1
  refine List.pairwise_filterMap.2 (List.Pairwise.imp_of_mem ?_ List.nodup_range)
  intro c c' hc hc' hne p hp p' hp' heq
  rw [List.mem_range] at hc hc'
  obtain ⟨-, hp⟩ := Option.ite_none_right_eq_some.1 hp
  obtain ⟨-, hp'⟩ := Option.ite_none_right_eq_some.1 hp'
  exact hne (place_column_inj hp (heq ▸ hp') (by omega) (by omega))

theorem spritePlaces_bounds {cx cy : Nat} {bs : List Byte} {p : Nat × Nat} (h : p ∈ spritePlaces wrap m cx cy bs) :
    p.1 < m.width ∧ p.2 < m.height := by
  obtain ⟨_, _, _, _, _, hp⟩ := (mem_spritePlaces ..).1 h
  exact place_bounds hp

/-- The bits of a sprite no higher than the screen land on different pixels. -/
theorem spritePlaces_nodup (cx cy : Nat) (bs : List Byte) (h : bs.length ≤ m.height) :
    (spritePlaces wrap m cx cy bs).Nodup := by
  induction bs generalizing cy with
  | nil => exact List.nodup_nil
  | cons bits rest ih =>
    rw [List.length_cons] at h
    refine (rowPlaces_nodup cx cy bits).append (ih (cy + 1) (by omega)) (List.disjoint_left.2 fun p hp hp' => ?_)
    obtain ⟨c, -, -, hp⟩ := (mem_rowPlaces ..).1 hp
    obtain ⟨r, c', hr, -, -, hp'⟩ := (mem_spritePlaces ..).1 hp'
    rw [Nat.add_assoc] at hp'
    have := place_row_inj (d := 0) hp hp' (by omega) (by omega)
    omega

end Place

/-! ## Drawing -/

section Draw

variable {m : Mode} {fb : List (List Byte)}

/-- On the screen FbXorPixel toggles its own pixel and no other (R221). -/
theorem fbPixel_fbXor_onScreen (h : fbWf m fb = true) {p : Nat × Nat} (hp : p.1 < m.width ∧ p.2 < m.height)
    (r c : Nat) :
    fbPixel (fbXor fb p.1 p.2) r c = if (c, r) = p then fbPixel fb r c ^^^ pixelOn else fbPixel fb r c := by
  obtain ⟨hrow, hcol⟩ := fbWf_bounds h hp.2
  rw [fbPixel_fbXor, hcol]
  refine if_congr ?_ rfl rfl
  rw [Prod.ext_iff]
  exact ⟨fun ⟨hr, hc, _⟩ => ⟨hc, hr⟩, fun ⟨hc, hr⟩ => ⟨hr, hc, hrow, hp.1⟩⟩

/-- Drawing at places no two of which are equal toggles each of them and no other pixel. -/
theorem fbPixel_fbDraw {ps : List (Nat × Nat)} (hnodup : ps.Nodup)
    (hps : ∀ p ∈ ps, p.1 < m.width ∧ p.2 < m.height) (h : fbWf m fb = true) (col : Bool) (r c : Nat) :
    fbPixel (fbDraw ps fb col).1 r c = if (c, r) ∈ ps then fbPixel fb r c ^^^ pixelOn else fbPixel fb r c := by
  induction ps generalizing fb col with
  | nil => rfl
  | cons p ps ih =>
    obtain ⟨hp, hrest⟩ := List.forall_mem_cons.1 hps
    obtain ⟨hnotMem, hnodup⟩ := List.nodup_cons.1 hnodup
    rw [fbDraw, ih hnodup hrest (fbWf_fbXor h _ _), fbPixel_fbXor_onScreen h hp]
    by_cases heq : (c, r) = p
    · simp [heq, hnotMem]
    · simp [heq]

/-- The collision bit of such a draw tells whether one of the places was on before it (R226). -/
theorem fbDraw_collision_iff {ps : List (Nat × Nat)} (hnodup : ps.Nodup)
    (hps : ∀ p ∈ ps, p.1 < m.width ∧ p.2 < m.height) (h : fbWf m fb = true) :
    (fbDraw ps fb false).2 = true ↔ ∃ p ∈ ps, fbPixel fb p.2 p.1 = pixelOn := by
  induction ps generalizing fb with
  | nil => simp [fbDraw]
  | cons p ps ih =>
    obtain ⟨hp, hrest⟩ := List.forall_mem_cons.1 hps
    obtain ⟨hnotMem, hnodup⟩ := List.nodup_cons.1 hnodup
    have hkeep (q) (hq : q ∈ ps) : fbPixel (fbXor fb p.1 p.2) q.2 q.1 = fbPixel fb q.2 q.1 := by
      rw [fbPixel_fbXor_onScreen h hp, if_neg fun heq : q = p => hnotMem (heq ▸ hq)]
    have hlater := ih hnodup hrest (fbWf_fbXor h p.1 p.2)
    rw [fbDraw, fbDraw_col, Bool.or_eq_true, hlater, List.exists_mem_cons_iff, or_comm]
    refine or_congr (by simp [fbHit]) (exists_congr fun q => and_congr_right fun hq => ?_)
    rw [hkeep q hq]

end Draw

/-! ## DRW -/

@[simp] theorem State.bytesFrom_length (s : State) (a k : Nat) : (s.bytesFrom a k).length = k := by
  simp [State.bytesFrom]

@[simp] theorem State.bytesFrom_getElem (s : State) (a k : Nat) {r : Nat} (hr : r < (s.bytesFrom a k).length) :
    (s.bytesFrom a k)[r] = s.byteAt (a + r) := by
  simp [State.bytesFrom]

/-- The state after a DRW whose sprite lies in memory (R226). -/
def State.afterDraw (s : State) (x y n : Nibble) : State :=
  (s.setDrawn (fbDraw (drwPlaces x y n s) s.fb false)).markDirty.advance

section Drw

variable {x y n : Nibble} {s : State}

theorem exec_drw_inRange (h : n = 0x0#4 ∨ s.ireg.toNat + n.toNat - 1 < 4096) :
    exec (.drw x y n) s = .next (s.afterDraw x y n) := by
  refine congrArg _ (withBytesAtI_inRange _ ?_)
  obtain rfl | h := h
  · exact .inl rfl
  · simp only [countOf, memSize]
    omega

/-- The places DRW toggles are the pixels its sprite lights (R226, R227). -/
theorem mem_drwPlaces_iff {px py : Nat} : (px, py) ∈ drwPlaces x y n s ↔ SpriteLights s x y n px py := by
  simp only [drwPlaces, mem_spritePlaces, State.bytesFrom_length, State.bytesFrom_getElem, countOf, exists_prop]
  constructor
  · rintro ⟨r, c, hr, hc, hbit, hp⟩
    obtain ⟨hx, hy⟩ := place_bounds hp
    exact ⟨hx, hy, r, c, hr, hc, hbit, (place_eq_some_iff hx hy).1 hp⟩
  · rintro ⟨hx, hy, r, c, hr, hc, hbit, hp⟩
    exact ⟨r, c, hr, hc, hbit, (place_eq_some_iff hx hy).2 hp⟩

theorem drwPlaces_bounds : ∀ p ∈ drwPlaces x y n s, p.1 < s.mode.width ∧ p.2 < s.mode.height :=
  fun _ hp => spritePlaces_bounds hp

theorem drwPlaces_nodup : (drwPlaces x y n s).Nodup := by
  refine spritePlaces_nodup _ _ _ ?_
  have hh := s.mode.sprite_fits.2
  have hn : n.toNat < 16 := n.isLt
  rw [State.bytesFrom_length, countOf]
  omega

theorem State.afterDraw_fbOk (h : s.FbOk) : (s.afterDraw x y n).FbOk :=
  fbWf_fbDraw _ false h

theorem State.afterDraw_pixel_of_lit (h : s.FbOk) {px py : Nat} (hlit : SpriteLights s x y n px py) :
    (s.afterDraw x y n).pixel py px = s.pixel py px ^^^ 0xFF#8 :=
  (fbPixel_fbDraw drwPlaces_nodup drwPlaces_bounds h false py px).trans (if_pos (mem_drwPlaces_iff.2 hlit))

theorem State.afterDraw_pixel_of_not_lit (h : s.FbOk) {px py : Nat} (hlit : ¬ SpriteLights s x y n px py) :
    (s.afterDraw x y n).pixel py px = s.pixel py px :=
  (fbPixel_fbDraw drwPlaces_nodup drwPlaces_bounds h false py px).trans (if_neg (mt mem_drwPlaces_iff.1 hlit))

theorem State.afterDraw_flag :
    (s.afterDraw x y n).reg 0xF#4 = flagByte (fbDraw (drwPlaces x y n s) s.fb false).2 :=
  State.setReg_reg_same _ flagReg _

theorem State.afterDraw_flag_eq_one_iff (h : s.FbOk) :
    (s.afterDraw x y n).reg 0xF#4 = 0x01#8 ↔ ∃ px py, SpriteLights s x y n px py ∧ s.pixel py px = 0xFF#8 := by
  rw [State.afterDraw_flag, flagByte_eq_one, fbDraw_collision_iff drwPlaces_nodup drwPlaces_bounds h, Prod.exists]
  exact exists₂_congr fun px py => and_congr_left' mem_drwPlaces_iff

theorem State.afterDraw_reg_of_ne {j : Nibble} (hj : j ≠ 0xF#4) : (s.afterDraw x y n).reg j = s.reg j :=
  State.setReg_reg_ne _ _ hj

/-- A draw leaves all that a sprite's places depend on, unless VF is one of the coordinates. -/
theorem State.afterDraw_spriteLights (hx : x ≠ 0xF#4) (hy : y ≠ 0xF#4) {px py : Nat} :
    SpriteLights (s.afterDraw x y n) x y n px py ↔ SpriteLights s x y n px py := by
  unfold SpriteLights
  rw [State.afterDraw_reg_of_ne hx, State.afterDraw_reg_of_ne hy]
  rfl

/-- The second of two equal draws toggles the same pixels back. -/
theorem State.afterDraw_afterDraw_fb (h : s.FbOk) (hx : x ≠ 0xF#4) (hy : y ≠ 0xF#4) :
    ((s.afterDraw x y n).afterDraw x y n).fb = s.fb := by
  have hfirst : (s.afterDraw x y n).FbOk := State.afterDraw_fbOk h
  refine fb_ext (m := s.mode) (State.afterDraw_fbOk hfirst) h fun r c _ _ => ?_
  change ((s.afterDraw x y n).afterDraw x y n).pixel r c = s.pixel r c
  by_cases hlit : SpriteLights s x y n c r
  · rw [State.afterDraw_pixel_of_lit hfirst ((State.afterDraw_spriteLights hx hy).2 hlit),
      State.afterDraw_pixel_of_lit h hlit, xor_cancel_right]
  · rw [State.afterDraw_pixel_of_not_lit hfirst (mt (State.afterDraw_spriteLights hx hy).1 hlit),
      State.afterDraw_pixel_of_not_lit h hlit]

end Drw

/-! ## The obligations -/

/-- Settles O54: the new buffer is the blank one of the mode. -/
theorem clsClearsDisplay : Obligations.ClsClearsDisplay :=
  fun _ s => ⟨rfl, _, rfl, rfl, fbWf_blank s.mode, fbPixel_blank s.mode⟩

/-- Settles O55: the new buffer is the blank one of the new mode. -/
theorem modeSwitchClears : Obligations.ModeSwitchClears :=
  fun _ => ⟨⟨_, rfl, rfl, fbWf_blank .low, blankFb_length .low, blankFb_row_length .low, fbPixel_blank .low⟩,
    ⟨_, rfl, rfl, fbWf_blank .high, blankFb_length .high, blankFb_row_length .high, fbPixel_blank .high⟩⟩

/-- Settles O56, by the range check: in range the places are pairwise different, so each is toggled once. -/
theorem drawTogglesSpritePixels : Obligations.DrawTogglesSpritePixels := by
  refine fun _ x y n s => ⟨rfl, fun hfb hr => ?_, fun hn hr => ?_⟩
  · refine ⟨s.afterDraw x y n, exec_drw_inRange hr, rfl, State.afterDraw_fbOk hfb,
      fun _ _ _ _ => ⟨State.afterDraw_pixel_of_lit hfb, State.afterDraw_pixel_of_not_lit hfb⟩,
      State.afterDraw_flag_eq_one_iff hfb, ?_, fun _ => State.afterDraw_reg_of_ne, fun _ => rfl⟩
    rw [State.afterDraw_flag, flagByte_eq_one, flagByte_eq_zero]
    exact Bool.eq_false_or_eq_true _
  · have hpos : 0 < n.toNat := Nat.pos_of_ne_zero fun h => hn (BitVec.eq_of_toNat_eq h)
    exact next_withBytesAtI_outOfRange _ hpos (by simp only [countOf]; omega)

/-- Settles O57: the second draw finds each lit pixel toggled, so on exactly when it was off before the first. -/
theorem drawTwiceRestores : Obligations.DrawTwiceRestores := by
  intro x y n s t hfb hx hy hr hdraw
  rw [exec_drw_inRange hr] at hdraw
  cases hdraw
  refine ⟨_, exec_drw_inRange hr, State.afterDraw_afterDraw_fb hfb hx hy, ?_⟩
  rw [State.afterDraw_flag_eq_one_iff (State.afterDraw_fbOk hfb)]
  refine exists₂_congr fun px py => ?_
  rw [State.afterDraw_spriteLights hx hy]
  refine and_congr_right fun hlit => ?_
  rw [State.afterDraw_pixel_of_lit hfb hlit]
  exact xor_right_eq_self_iff

/-- Settles O58: each row of the new buffer is an old one or blank. -/
theorem scrollsMoveRows : Obligations.ScrollsMoveRows :=
  fun n s => ⟨⟨_, rfl, rfl, fbScrollDown_length s.mode n.toNat s.fb, fbPixel_scrollDown s.mode n.toNat s.fb⟩,
    ⟨_, rfl, rfl, fbScrollUp_length s.mode n.toNat s.fb, fbPixel_scrollUp s.mode n.toNat s.fb⟩⟩

/-- Settles O59: each of the four is a step to the next word. -/
theorem acceptedNoOps : Obligations.AcceptedNoOps :=
  fun _ x _ => ⟨rfl, rfl, (append_assoc_imm 0xF#4 x 0x7#4 0x5#4).symm, (append_assoc_imm 0xF#4 x 0x8#4 0x5#4).symm,
    rfl, rfl, rfl, rfl⟩

/-- Settles O60: RUN alone is written. -/
theorem exitHalts : Obligations.ExitHalts :=
  fun _ _ => ⟨rfl, rfl⟩

end Sys2Proof.Machine
end

section
/-! SUPPORT. Steps, errors and host events (60_exceptions.md): which word a Step runs, that no error is fatal (R260) and each
is precise (R264), and what Tick, KeypadWrite, Present and Shutdown do (R281 to R285). -/

namespace Sys2Proof.Machine

/-! ## Every step answers a next state -/

/-- No instruction is refused or faults (R110, R260): CALL and RET, the two that branch, answer a next state either way. -/
theorem exec_next (i : Instr) (s : State) : ∃ t, exec i s = .next t := by
  cases i with
  | call nnn =>
    by_cases hfull : s.cfg.stackDepth = some s.stk.length
    · exact ⟨_, exec_call_of_full nnn hfull⟩
    · exact ⟨_, exec_call_of_room nnn hfull⟩
  | ret =>
    cases hstk : s.stk with
    | nil => exact ⟨_, exec_ret_of_nil hstk⟩
    | cons a rest => exact ⟨_, exec_ret_of_cons hstk⟩
  | _ => exact ⟨_, rfl⟩

/-- Both fetch errors have a next state (R262, R264). -/
theorem fetchAndExec_next (s : State) : ∃ t, fetchAndExec s = .next t := by
  obtain ⟨-, h⟩ | ⟨-, i, -, h⟩ | ⟨-, e, -, h⟩ := fetchAndExec_cases s
  · exact ⟨_, h⟩
  · rw [h]
    exact exec_next i s
  · exact ⟨_, h⟩

theorem stepEvent_next (s : State) : ∃ t, stepEvent s = .next t := by
  by_cases hrun : s.run = .running
  · rw [stepEvent_running hrun]
    exact fetchAndExec_next s
  · exact ⟨s, stepEvent_idle hrun⟩

theorem runEvent_next (e : Event) (s : State) : ∃ t, runEvent e s = .next t := by
  cases e with
  | step => exact stepEvent_next s
  | _ => exact ⟨_, rfl⟩

/-! ## What a Step fetches -/

/-- In RUNNING a Step as the next event fetches in a state that differs from `s` in the schedule alone. -/
theorem State.StepNext.fetches {s s' : State} (h : s.StepNext s') (hrun : s.run = .running) :
    ∃ rest, s' = { s with schedule := rest } ∧ step s = fetchAndExec s' := by
  have hrun' : s'.run = .running := by rw [h.eq]; exact hrun
  exact ⟨s'.schedule, h.eq, h.step_eq.trans (stepEvent_running hrun')⟩

section Fetch

variable (s : State) (hpc : s.pc.toNat + 1 < memSize)
include hpc

theorem fetchAndExec_of_ok {i : Instr} (h : decodeWord s.cfg.keyScu (s.wordAt s.pc.toNat) = .ok i) :
    fetchAndExec s = exec i s := by
  rw [fetchAndExec, if_neg (Nat.not_le.2 hpc), h]

theorem fetchAndExec_of_unclassified (h : classify s.cfg.keyScu (s.wordAt s.pc.toNat) = none) :
    fetchAndExec s = .next (classificationFailure (s.wordAt s.pc.toNat) s) := by
  have herr := (decoderAgreesWithClassifier s.cfg.keyScu (s.wordAt s.pc.toNat)).1.1 h
  rw [fetchAndExec, if_neg (Nat.not_le.2 hpc), herr]

end Fetch

/-! ## Ticks -/

theorem State.ticking_eq_true_iff (s : State) :
    s.ticking = true ↔ s.run = .running ∨ (s.run = .awaitingKey ∧ s.cfg.tickInWait = true) := by
  cases h : s.run <;> simp [State.ticking, h]

theorem State.ticking_eq_false_iff (s : State) :
    s.ticking = false ↔ s.run = .halted ∨ (s.run = .awaitingKey ∧ s.cfg.tickInWait = false) := by
  cases h : s.run <;> simp [State.ticking, h]

theorem tickEvent_of_ticking {s : State} (h : s.ticking = true) :
    tickEvent s = { s with dt := tickTimer s.dt, st := tickTimer s.st } :=
  if_pos h

theorem tickEvent_of_not_ticking {s : State} (h : s.ticking = false) : tickEvent s = s :=
  if_neg (Bool.eq_false_iff.1 h)

/-! ## Keys -/

theorem freshKeys_eq_nil_iff {old new : BitVec 16} :
    freshKeys old new = [] ↔ ∀ k, k < 16 → new.getLsbD k = true → old.getLsbD k = true := by
  simp [freshKeys]

/-- The fresh keys are listed from the lowest up, so the first is the one with no fresh key below it (R282). -/
theorem freshKeys_eq_cons {old new : BitVec 16} {k : Nat} (hk : k < 16) (hnew : new.getLsbD k = true)
    (hold : old.getLsbD k = false) (hlow : ∀ j, j < k → new.getLsbD j = true → old.getLsbD j = true) :
    ∃ ks, freshKeys old new = k :: ks := by
  rw [← List.head?_eq_some_iff, freshKeys, List.head?_filter, List.find?_range_eq_some]
  refine ⟨by simp [hnew, hold], List.mem_range.2 hk, fun j hj => ?_⟩
  cases hj' : new.getLsbD j with
  | false => rfl
  | true => simp [hlow j hj hj']

section Keypad

variable (s : State) {snapshot : BitVec 16}

/-- Unless a fresh key ends a wait, KEY alone changes (R282). -/
theorem keypadEvent_of_no_wake (h : s.run = .awaitingKey → freshKeys s.key snapshot = []) :
    keypadEvent snapshot s = { s with key := snapshot } := by
  obtain ⟨k, ks, hrun, hk, -⟩ | ⟨-, he⟩ := keypadEvent_cases s snapshot
  · exact absurd ((h hrun).symm.trans hk) (List.cons_ne_nil k ks).symm
  · exact he

/-- In a wait the first fresh key completes LD Vx,K (R202, R282). -/
theorem keypadEvent_of_fresh {k : Nat} {ks : List Nat} (hrun : s.run = .awaitingKey)
    (h : freshKeys s.key snapshot = k :: ks) : keypadEvent snapshot s = wakeUp k { s with key := snapshot } := by
  rw [keypadEvent, hrun, h]

/-- A KeypadWrite that ends a wait has a fresh key, and goes on to RUNNING (R277). -/
theorem keypadEvent_leaves_wait (hrun : s.run = .awaitingKey) (h : (keypadEvent snapshot s).run ≠ .awaitingKey) :
    ∃ k, k ∈ freshKeys s.key snapshot ∧ (keypadEvent snapshot s).run = .running := by
  obtain ⟨k, ks, -, hk, he⟩ | ⟨-, he⟩ := keypadEvent_cases s snapshot
  · exact ⟨k, hk ▸ List.mem_cons_self, by rw [he]; rfl⟩
  · rw [he] at h
    exact absurd hrun h

end Keypad

theorem wakeUp_reg_wreg (s : State) {k : Nat} (hk : k < 16) : ((wakeUp k s).reg s.wreg).toNat = k := by
  have hreg : (wakeUp k s).reg s.wreg = BitVec.ofNat 8 k := s.setReg_reg_same s.wreg _
  rw [hreg, BitVec.toNat_ofNat]
  omega

theorem wakeUp_reg_of_ne (s : State) (k : Nat) {r : Nibble} (hr : r ≠ s.wreg) : (wakeUp k s).reg r = s.reg r :=
  s.setReg_reg_ne _ hr

/-- The events that can end a wait (R277). -/
theorem EventEffect.leaves_wait {s t : State} {e : Event} (h : EventEffect s e t) (hrun : s.run = .awaitingKey)
    (hne : t.run ≠ .awaitingKey) :
    (∃ cfg program, e = .reset cfg program) ∨ e = .shutdown ∨ ∃ snapshot, e = .keypadWrite snapshot := by
  cases h with
  | fetchRange hr | unclassified hr | instruction hr => simp [hrun] at hr
  | reset cfg program => exact .inl ⟨cfg, program, rfl⟩
  | shutdown => exact .inr (.inl rfl)
  | wake snapshot => exact .inr (.inr ⟨snapshot, rfl⟩)
  | _ => exact absurd hrun hne

/-! ## The picture -/

/-- In lists of equal length laid end to end, element `c` of list `r` stands at index `r * w + c`. -/
theorem getElem?_flatten_of_length_eq {α : Type} {w c : Nat} (hc : c < w) {L : List (List α)}
    (hL : ∀ l ∈ L, l.length = w) (r : Nat) : L.flatten[r * w + c]? = (L.getD r [])[c]? := by
  induction L generalizing r with
  | nil => simp
  | cons l L ih =>
    obtain ⟨hl, hL⟩ := List.forall_mem_cons.1 hL
    rw [List.flatten_cons]
    cases r with
    | zero => simp [List.getElem?_append_left, hl, hc]
    | succ r =>
      have hidx : (r + 1) * w + c - l.length = r * w + c := by rw [hl, Nat.succ_mul]; omega
      rw [List.getElem?_append_right (by rw [hl, Nat.succ_mul]; omega), hidx, ih hL]
      rfl

theorem fbWf_flatten_length {m : Mode} {fb : List (List Byte)} (h : fbWf m fb = true) :
    fb.flatten.length = m.width * m.height := by
  obtain ⟨hheight, hrows⟩ := (fbWf_iff m fb).1 h
  rw [List.length_flatten, List.map_congr_left fun row hrow => (hrows row hrow).1, List.map_const', List.sum_replicate,
    hheight, smul_eq_mul, Nat.mul_comm]

/-- The picture's byte of pixel (r, c), whatever the default for an index past its end (R39). -/
theorem fbWf_flatten_getD {m : Mode} {fb : List (List Byte)} (h : fbWf m fb = true) {r c : Nat} (hr : r < m.height)
    (hc : c < m.width) (d : Byte) : fb.flatten.getD (r * m.width + c) d = fbPixel fb r c := by
  have hrow : c < (fb.getD r []).length := (fbWf_bounds h hr).2.symm ▸ hc
  have hrows := ((fbWf_iff m fb).1 h).2
  rw [List.getD_eq_getElem?_getD, getElem?_flatten_of_length_eq hc fun row hmem => (hrows row hmem).1, fbPixel,
    List.getElem?_eq_getElem hrow, List.getD_eq_getElem _ _ hrow, Option.getD_some]

/-! ## The obligations -/

/-- Settles O13: each event answers a next state, and a step is one event. -/
theorem everyStepAnswersNext : Obligations.EveryStepAnswersNext :=
  fun s => runEvent_next (nextEvent s).1 (nextEvent s).2

/-- Settles O14: of the effects of an instruction only the four faults write the reports or HF. -/
theorem handlerFaultsArePrecise : Obligations.HandlerFaultsArePrecise := by
  intro i s t h hne
  cases exec_effect h with
  | memRange hi => exact ⟨_, _, rfl, .inl ⟨rfl, rfl, hi⟩⟩
  | stackOverflow nnn => exact ⟨_, _, rfl, .inr (.inl ⟨rfl, rfl, nnn, rfl⟩)⟩
  | stackUnderflow => exact ⟨_, _, rfl, .inr (.inr (.inl ⟨rfl, rfl, rfl⟩))⟩
  | keyIndex x hi hk => exact ⟨_, _, rfl, .inr (.inr (.inr ⟨rfl, x, rfl, hk, hi⟩))⟩
  | _ => exact hne.elim (absurd rfl) (absurd rfl)

/-- Settles O20: a Step is idle in a wait, and the event that ends one is on the schedule. -/
theorem awaitingKeyHolds : Obligations.AwaitingKeyHolds := by
  intro s hrun
  refine ⟨fun s' hnext => ?_, fun t h hne => ?_⟩
  · have hidle : s'.run ≠ .running := by rw [hnext.eq]; simp [hrun]
    rw [hnext.step_eq, stepEvent_idle hidle]
  obtain ⟨e, he, heffect⟩ := step_effect h
  obtain ⟨cfg, program, rfl⟩ | rfl | ⟨snapshot, rfl⟩ := heffect.leaves_wait hrun hne
  · exact .inl (resetNext_of_nextEvent he)
  · obtain ⟨rest, hs⟩ := schedule_of_nextEvent (s := s) (by simp [he])
    cases heffect
    exact .inr (.inl ⟨rest, he ▸ hs, rfl⟩)
  · obtain ⟨rest, hs⟩ := schedule_of_nextEvent (s := s) (by simp [he])
    rw [he] at hs
    rw [step_of_cons hs] at h
    cases h
    obtain ⟨k, hk, hrunning⟩ := keypadEvent_leaves_wait { s with schedule := rest } hrun hne
    obtain ⟨hlt, hnew, hold⟩ := (mem_freshKeys _ _ _).1 hk
    exact .inr (.inr ⟨snapshot, rest, k, hs, hlt, hnew, hold, hrunning⟩)

/-- Settles O29, by the run state and the fresh keys. -/
theorem keypadWriteWakesOnFreshKey : Obligations.KeypadWriteWakesOnFreshKey := by
  intro s snapshot rest hs
  have hstep : step s = .next (keypadEvent snapshot { s with schedule := rest }) := step_of_cons hs
  refine ⟨fun hrun => ?_, fun _ hno => ?_, fun k hrun hk hnew hold hlow => ?_⟩
  · rw [hstep, keypadEvent_of_no_wake { s with schedule := rest } fun h => absurd h hrun]
  · rw [hstep, keypadEvent_of_no_wake { s with schedule := rest } fun _ => freshKeys_eq_nil_iff.2 hno]
  · obtain ⟨ks, hfresh⟩ := freshKeys_eq_cons hk hnew hold hlow
    rw [keypadEvent_of_fresh { s with schedule := rest } hrun hfresh] at hstep
    exact ⟨_, hstep, wakeUp_reg_wreg _ hk, fun _ => wakeUp_reg_of_ne _ k, rfl⟩

/-- Settles O30: each of the two events writes one field, and the picture is the rows end to end. -/
theorem presentAndShutdown : Obligations.PresentAndShutdown := by
  refine ⟨fun s rest hs => ?_, fun s rest hs => ?_, fun s hfb => ?_⟩
  · exact (step_of_cons hs).trans (congrArg _ (presentEvent_eq _))
  · exact (step_of_cons hs).trans (congrArg _ (shutdownEvent_eq _))
  · exact ⟨rfl, fbWf_flatten_length hfb, fun _ _ hr hc => fbWf_flatten_getD hfb hr hc _⟩

/-- Settles O10: the word at pc is the two bytes, and the schedule is no part of what is fetched. -/
theorem stepRunsDecodedInstruction : Obligations.StepRunsDecodedInstruction := by
  intro s s' i hnext hrun hpc hdecode
  obtain ⟨rest, rfl, hstep⟩ := hnext.fetches hrun
  exact hstep.trans (fetchAndExec_of_ok { s with schedule := rest } hpc hdecode)

/-- Settles O11: a word the classifier rejects takes ClassificationFailure. -/
theorem unclassifiedWordAdvances : Obligations.UnclassifiedWordAdvances := by
  intro s s' hnext hrun hpc hclass
  obtain ⟨rest, rfl, hstep⟩ := hnext.fetches hrun
  exact ⟨rfl, hstep.trans (fetchAndExec_of_unclassified _ hpc hclass)⟩

/-- Settles O28, by whether a Tick acts. -/
theorem tickDecrementsTimers : Obligations.TickDecrementsTimers := by
  intro s rest hs
  have hstep : step s = .next (tickEvent { s with schedule := rest }) := step_of_cons hs
  refine ⟨fun hacts => ?_, fun hidle => ?_⟩
  · have hticking := (State.ticking_eq_true_iff { s with schedule := rest }).2 hacts
    rw [tickEvent_of_ticking hticking] at hstep
    exact ⟨_, hstep, rfl, tickTimer_toNat s.dt, tickTimer_toNat s.st⟩
  · have hticking := (State.ticking_eq_false_iff { s with schedule := rest }).2 hidle
    rw [hstep, tickEvent_of_not_ticking hticking]

end Sys2Proof.Machine
end

section
/-! SUPPORT. Reset (10_state.md section 9, R300, R301): memory read back after one, in the image (cut by R75) and outside it. -/

namespace Sys2Proof.Machine

section Image

variable (cfg : Config) {program : List Byte}

/-- The image stands verbatim from 0x200, as far as it is not cut (R75, R300). -/
theorem State.resetWith_byteAt_inside {j : Nat} (hj : j < min program.length progMax) :
    (State.resetWith cfg program).byteAt (progBase + j) = program.getD j 0x00#8 := by
  have hin : progBase ≤ progBase + j ∧ progBase + j < progBase + (program.take progMax).length := by
    rw [List.length_take]
    omega
  refine (memRead_imageCells cfg.fontRom progBase (progBase + j) (program.take progMax)).trans ?_
  rw [dif_pos hin, List.getD_eq_getElem program _ (by omega)]
  simp

theorem State.resetWith_byteAt_outside {a : Nat} (ha : a < progBase ∨ progBase + min program.length progMax ≤ a) :
    (State.resetWith cfg program).byteAt a = unlisted cfg.fontRom a := by
  have hout : ¬ (progBase ≤ a ∧ a < progBase + (program.take progMax).length) := by
    rw [List.length_take]
    omega
  exact (memRead_imageCells cfg.fontRom progBase a (program.take progMax)).trans (dif_neg hout)

theorem State.resetWith_byteAt_font {a : Nat} (ha : a < fontSize) :
    (State.resetWith cfg program).byteAt a = cfg.fontRom.getD a 0x00#8 :=
  (State.resetWith_byteAt_outside cfg (.inl (Nat.lt_trans ha (by decide)))).trans (if_pos ha)

/-- Outside the font and the image memory is zero: in the gap between them (D31) and after the image (R300). -/
theorem State.resetWith_byteAt_zero {a : Nat} (hfont : fontSize ≤ a)
    (ha : a < progBase ∨ progBase + min program.length progMax ≤ a) :
    (State.resetWith cfg program).byteAt a = 0x00#8 :=
  (State.resetWith_byteAt_outside cfg ha).trans (if_neg (Nat.not_lt.mpr hfont))

end Image

/-- Every register is zero after a Reset (R46, decision D7). -/
@[simp] theorem State.resetWith_reg (cfg : Config) (program : List Byte) (r : Nibble) :
    (State.resetWith cfg program).reg r = 0x00#8 :=
  Vector.getElem_replicate r.isLt

/-- Settles O8: the event's state is `State.resetWith` but for the reports, the draws and the schedule. -/
theorem resetLoadsProgram : Obligations.ResetLoadsProgram := by
  intro s cfg program rest hs
  have hfont (a) (ha : a < 0x100) := State.resetWith_byteAt_font cfg (program := program) ha
  have hgap (a) (hlo : 0x100 ≤ a) (hhi : a < 0x200) := State.resetWith_byteAt_zero cfg (program := program) hlo (.inl hhi)
  have himage (j) (hj : j < min program.length 0xE00) := State.resetWith_byteAt_inside cfg hj
  have hafter (a) (ha : 0x200 + min program.length 0xE00 ≤ a) (_ : a < 4096) :=
    have hfontEnd : fontSize ≤ 0x200 := by decide
    State.resetWith_byteAt_zero cfg (hfontEnd.trans (Nat.le_of_add_right_le ha)) (.inr ha)
  exact ⟨_, step_of_cons hs, rfl, State.resetWith_reg cfg program, rfl, rfl, rfl, rfl, rfl, rfl,
    State.resetWith_fbOk cfg program, fbPixel_blank .low, rfl, rfl, rfl, rfl, rfl, rfl, hfont, hgap, himage, hafter,
    rfl, rfl, rfl⟩

end Sys2Proof.Machine
end
